-- ==== Sys2Proof/Word.lean ====
section
/-! DEFINITION. Words, bytes and the operand types that the instruction formats carry. -/

namespace Sys2Proof

/-- A general register, a PSR image, an instruction, an address (R5: XLEN = ILEN = 32). -/
abbrev Word := BitVec 32

abbrev Byte := BitVec 8

/-- A 4-bit register field of an instruction, 0 to 15 (R54). Number 15 is the PC (R29). -/
abbrev RegNum := BitVec 4

/-- Instruction bits 19:16 of MSR, one bit per PSR byte (R57): bit 0 is `c`, 1 `x`, 2 `s`, 3 `f`. -/
abbrev FieldMask := BitVec 4

/-- The mode field M[4:0] of a PSR, a mode or not (R13, R27). -/
abbrev ModeBits := BitVec 5

/-- How the four bytes at the pc make an instruction word (R43, parameter ENDIAN). -/
inductive ByteOrder where
  | little
  | big
  deriving DecidableEq, Repr

/-- The fifteen usable conditions (R62). The code 1111 is none of them: it is refused before decoding (R63). -/
inductive Cond where
  | eq | ne | cs | cc | mi | pl | vs | vc | hi | ls | ge | lt | gt | le | al
  deriving DecidableEq, Repr

/-- The R bit (R55): which status register an MRS names. -/
inductive PsrSel where
  | cpsr
  | spsr
  deriving DecidableEq, Repr

end Sys2Proof
end

