-- ==== Sys2Proof/Config.lean ====
section
/-! DEFINITION. What an implementation fixes, and the values the spec leaves free. -/

namespace Sys2Proof

/-- ENDIAN's default (R5, D1): the byte order the machine has at reset. -/
def Config.defaultOrder : ByteOrder := .little

/-- FREE VALUE (log 4). What the n-th draw returns in the reserved PSR bits 27:8 (R15, `draw_20()`).
No proof can see what it is. -/
opaque Config.reservedBits : Nat → BitVec 20

/-- FREE VALUE (log 6). The words that the Reset exception leaves in R14_svc and SPSR_svc (R89, R100). -/
opaque Config.resetWord : Nat → BitVec 32

end Sys2Proof
end

