-- ==== Sys2Proof/Syntax.lean ====
section
/-! DEFINITION. The instructions: one constructor per row of spec/opcode_table.json. -/

namespace Sys2Proof

/-- The seven rows of the opcode table. Every instruction carries its condition (R61). -/
inductive Instr where
  /-- `MRS{cond} Rd, CPSR` and `MRS{cond} Rd, SPSR` (R66, R70). -/
  | mrs (cond : Cond) (psr : PsrSel) (rd : RegNum)
  /-- `MSR{cond} CPSR_<fields>, Rm` (R67, R76). -/
  | msrCpsrReg (cond : Cond) (mask : FieldMask) (rm : RegNum)
  /-- `MSR{cond} SPSR_<fields>, Rm` (R67, R77). -/
  | msrSpsrReg (cond : Cond) (mask : FieldMask) (rm : RegNum)
  /-- `MSR{cond} CPSR_<fields>, #immediate` (R67, R76). -/
  | msrCpsrImm (cond : Cond) (mask : FieldMask) (rot : BitVec 4) (imm : Byte)
  /-- `MSR{cond} SPSR_<fields>, #immediate` (R67, R77). -/
  | msrSpsrImm (cond : Cond) (mask : FieldMask) (rot : BitVec 4) (imm : Byte)
  /-- `BIC{cond} Rd, Rn, #immediate` (R82). -/
  | bic (cond : Cond) (rd rn : RegNum) (rot : BitVec 4) (imm : Byte)
  /-- `ORR{cond} Rd, Rn, #immediate` (R83). -/
  | orr (cond : Cond) (rd rn : RegNum) (rot : BitVec 4) (imm : Byte)
  deriving DecidableEq, Repr

/-- The condition an instruction carries. -/
def Instr.cond : Instr → Cond
  | .mrs c _ _ => c
  | .msrCpsrReg c _ _ => c
  | .msrSpsrReg c _ _ => c
  | .msrCpsrImm c _ _ _ => c
  | .msrSpsrImm c _ _ _ => c
  | .bic c _ _ _ _ => c
  | .orr c _ _ _ _ => c

end Sys2Proof
end

