-- ==== Sys2Proof/WellFormed.lean ====
section
/-! DEFINITION. Which terms of Instr stand for a word the decoder accepts. -/

namespace Sys2Proof

/-- BIC and ORR admit registers 0 to 14 only: a word with 15 in Rn or Rd is refused at decode (R81). In MRS
and MSR the number 15 decodes and faults when it runs (R72, R79), so every other term is well formed. -/
def wellFormed : Instr → Bool
  | .mrs _ _ _ => true
  | .msrCpsrReg _ _ _ => true
  | .msrSpsrReg _ _ _ => true
  | .msrCpsrImm _ _ _ _ => true
  | .msrSpsrImm _ _ _ _ => true
  | .bic _ rd rn _ _ => rd != 15#4 && rn != 15#4
  | .orr _ rd rn _ _ => rd != 15#4 && rn != 15#4

abbrev WellFormed (i : Instr) : Prop := wellFormed i = true

end Sys2Proof
end

