-- ==== Sys2Proof/Decode.lean ====
section
/-! DEFINITION. From instruction words to Instr and back, from the encoding tables of 30_encoding.md. -/

namespace Sys2Proof

/-- Why a word (or a byte string) is no instruction in scope. -/
inductive DecodeError where
  /-- Fewer than four bytes are left. -/
  | truncated
  /-- Bits 31:28 are 1111 (R63). -/
  | condNV
  /-- No row of the table matches, wrong fill bits among the reasons (R59, R60). -/
  | notAnInScopeInstruction
  /-- BIC or ORR with 15 in Rn or Rd (R81). -/
  | pcOperand
  deriving DecidableEq, Repr

/-- A row of the decoder table (R60): the word `w` is of the row when `w AND mask = pattern`. -/
structure Row where
  mask : Word
  pattern : Word
  deriving DecidableEq, Repr

def Row.hits (r : Row) (w : Word) : Bool := (w &&& r.mask) == r.pattern

def rowMrs : Row := ⟨0x0FBF0FFF#32, 0x010F0000#32⟩
def rowMsrCpsrReg : Row := ⟨0x0FF0FFF0#32, 0x0120F000#32⟩
def rowMsrSpsrReg : Row := ⟨0x0FF0FFF0#32, 0x0160F000#32⟩
def rowMsrCpsrImm : Row := ⟨0x0FF0F000#32, 0x0320F000#32⟩
def rowMsrSpsrImm : Row := ⟨0x0FF0F000#32, 0x0360F000#32⟩
def rowBic : Row := ⟨0x0FF00000#32, 0x03C00000#32⟩
def rowOrr : Row := ⟨0x0FF00000#32, 0x03800000#32⟩

/-- The decoder table with both MSR rows split by bit 22, as spec/opcode_table.json has it (R60). -/
def rows : List Row :=
  [rowMrs, rowMsrCpsrReg, rowMsrSpsrReg, rowMsrCpsrImm, rowMsrSpsrImm, rowBic, rowOrr]

/-- The condition codes (R62). -/
def Cond.bits : Cond → BitVec 4
  | .eq => 0b0000#4
  | .ne => 0b0001#4
  | .cs => 0b0010#4
  | .cc => 0b0011#4
  | .mi => 0b0100#4
  | .pl => 0b0101#4
  | .vs => 0b0110#4
  | .vc => 0b0111#4
  | .hi => 0b1000#4
  | .ls => 0b1001#4
  | .ge => 0b1010#4
  | .lt => 0b1011#4
  | .gt => 0b1100#4
  | .le => 0b1101#4
  | .al => 0b1110#4

/-- The condition a 4-bit code names (R62): none for 1111 (R63). -/
def Cond.ofBits (b : BitVec 4) : Option Cond :=
  match b.toNat with
  | 0 => some .eq
  | 1 => some .ne
  | 2 => some .cs
  | 3 => some .cc
  | 4 => some .mi
  | 5 => some .pl
  | 6 => some .vs
  | 7 => some .vc
  | 8 => some .hi
  | 9 => some .ls
  | 10 => some .ge
  | 11 => some .lt
  | 12 => some .gt
  | 13 => some .le
  | 14 => some .al
  | _ => none

/-- The R bit of a PSR name (R55). -/
def PsrSel.bit : PsrSel → BitVec 1
  | .cpsr => 0#1
  | .spsr => 1#1

/-- The fields of an instruction word (R52, R53, R56, R81). -/
def condField (w : Word) : BitVec 4 := w.extractLsb' 28 4
def psrField (w : Word) : PsrSel := if w.getLsbD 22 then .spsr else .cpsr
def maskField (w : Word) : FieldMask := w.extractLsb' 16 4
def rnField (w : Word) : RegNum := w.extractLsb' 16 4
def rdField (w : Word) : RegNum := w.extractLsb' 12 4
def rmField (w : Word) : RegNum := w.extractLsb' 0 4
def rotField (w : Word) : BitVec 4 := w.extractLsb' 8 4
def immField (w : Word) : Byte := w.extractLsb' 0 8

/-- A row with a register operand that must not be the PC (R81). -/
def unlessPc (w : Word) (i : Instr) : Except DecodeError Instr :=
  if rnField w = 15#4 ∨ rdField w = 15#4 then .error .pcOperand else .ok i

/-- The decoder (R38 lines 3 and 4, R60): the condition 1111 is refused before the rest is looked at. -/
def decodeWord (w : Word) : Except DecodeError Instr :=
  match Cond.ofBits (condField w) with
  | none => .error .condNV
  | some c =>
    if rowMrs.hits w then .ok (.mrs c (psrField w) (rdField w))
    else if rowMsrCpsrReg.hits w then .ok (.msrCpsrReg c (maskField w) (rmField w))
    else if rowMsrSpsrReg.hits w then .ok (.msrSpsrReg c (maskField w) (rmField w))
    else if rowMsrCpsrImm.hits w then .ok (.msrCpsrImm c (maskField w) (rotField w) (immField w))
    else if rowMsrSpsrImm.hits w then .ok (.msrSpsrImm c (maskField w) (rotField w) (immField w))
    else if rowBic.hits w then unlessPc w (.bic c (rdField w) (rnField w) (rotField w) (immField w))
    else if rowOrr.hits w then unlessPc w (.orr c (rdField w) (rnField w) (rotField w) (immField w))
    else .error .notAnInScopeInstruction

/-- The word that four bytes make, the first at the lowest address (R43): with `little` the first byte is bits
7:0, with `big` it is bits 31:24. -/
def wordOfBytes (o : ByteOrder) (b0 b1 b2 b3 : Byte) : Word :=
  match o with
  | .little => b3 ++ b2 ++ b1 ++ b0
  | .big => b0 ++ b1 ++ b2 ++ b3

/-- The four bytes of a word in address order (R43). -/
def bytesOfWord (o : ByteOrder) (w : Word) : List Byte :=
  match o with
  | .little => [w.extractLsb' 0 8, w.extractLsb' 8 8, w.extractLsb' 16 8, w.extractLsb' 24 8]
  | .big => [w.extractLsb' 24 8, w.extractLsb' 16 8, w.extractLsb' 8 8, w.extractLsb' 0 8]

/-- Decode the instruction at the head of a byte string; the rest is given back. -/
def decodeBytes (o : ByteOrder) : List Byte → Except DecodeError (Instr × List Byte)
  | b0 :: b1 :: b2 :: b3 :: rest =>
    match decodeWord (wordOfBytes o b0 b1 b2 b3) with
    | .ok i => .ok (i, rest)
    | .error e => .error e
  | _ => .error .truncated

/-- The word whose low `nbits` bits are those of `w` and whose other bits are 0. -/
def tableWord (nbits w : Nat) : Word := BitVec.ofNat 32 (w % 2 ^ nbits)

/-- What the decoder reads from the word the opcode table numbers as `w`, laid out in the default byte order. -/
def decodeTableWord (nbits w : Nat) : Option Instr :=
  match decodeBytes Config.defaultOrder (bytesOfWord Config.defaultOrder (tableWord nbits w)) with
  | .ok (i, _) => some i
  | .error _ => none

/-- The word of an instruction: the field rows of R52 (MRS), R56 and R53 (MSR), R81 (BIC, ORR), bit 31 first,
the fill fields holding the values that `llenar con 1` and `llenar con 0` name (R59). -/
def encode : Instr → Word
  | .mrs c r rd => c.bits ++ 0b00010#5 ++ r.bit ++ 0b00#2 ++ 0b1111#4 ++ rd ++ 0#12
  | .msrCpsrReg c m rm => c.bits ++ 0b00010#5 ++ 0#1 ++ 0b10#2 ++ m ++ 0b1111#4 ++ 0#4 ++ 0#4 ++ rm
  | .msrSpsrReg c m rm => c.bits ++ 0b00010#5 ++ 1#1 ++ 0b10#2 ++ m ++ 0b1111#4 ++ 0#4 ++ 0#4 ++ rm
  | .msrCpsrImm c m rot imm => c.bits ++ 0b00110#5 ++ 0#1 ++ 0b10#2 ++ m ++ 0b1111#4 ++ rot ++ imm
  | .msrSpsrImm c m rot imm => c.bits ++ 0b00110#5 ++ 1#1 ++ 0b10#2 ++ m ++ 0b1111#4 ++ rot ++ imm
  | .bic c rd rn rot imm => c.bits ++ 0b001#3 ++ 0b1110#4 ++ 0#1 ++ rn ++ rd ++ rot ++ imm
  | .orr c rd rn rot imm => c.bits ++ 0b001#3 ++ 0b1100#4 ++ 0#1 ++ rn ++ rd ++ rot ++ imm

/-- The row of the table that an instruction belongs to. -/
def rowOf : Instr → Row
  | .mrs _ _ _ => rowMrs
  | .msrCpsrReg _ _ _ => rowMsrCpsrReg
  | .msrSpsrReg _ _ _ => rowMsrSpsrReg
  | .msrCpsrImm _ _ _ _ => rowMsrCpsrImm
  | .msrSpsrImm _ _ _ _ => rowMsrSpsrImm
  | .bic _ _ _ _ _ => rowBic
  | .orr _ _ _ _ _ => rowOrr

end Sys2Proof
end

