-- ==== Sys2Proof/Machine/State.lean ====
section
/-! DEFINITION. The state of the machine (10_state.md R37), the reasons a step can stop, and the state after reset. -/

namespace Sys2Proof.Machine

/-- The seven processor modes (R26). -/
inductive Mode where
  | user | fiq | irq | supervisor | abort | undefined | system
  deriving DecidableEq, Repr

/-- The five exception banks, each with an SPSR and a banked R13 and R14 (R12, R85). -/
inductive Bank where
  | fiq | irq | svc | abt | und
  deriving DecidableEq, Repr

/-- The thirty numbered registers of all banks (R31, R32), by their place in the arrays of R37: `fiq k` is
R(8+k)_fiq, and `irq`, `svc`, `abt`, `und` hold R13 at 0 and R14 at 1. -/
inductive PhysReg where
  | common (k : Fin 15)
  | fiq (k : Fin 7)
  | irq (k : Fin 2)
  | svc (k : Fin 2)
  | abt (k : Fin 2)
  | und (k : Fin 2)
  deriving DecidableEq, Repr

/-- The seven exceptions of the architecture (R86). -/
inductive Exn where
  | reset | undefinedInstruction | softwareInterrupt | prefetchAbort | dataAbort | irq | fiq
  deriving DecidableEq, Repr

/-- What is stored of a program status register: eight fields (R15). Bits 27:8 are not state. -/
structure Psr where
  n : Bool
  z : Bool
  c : Bool
  v : Bool
  i : Bool
  f : Bool
  t : Bool
  m : ModeBits
  deriving DecidableEq, Repr

/-- Memory: the bytes that hold something, by address (R43). An address not listed holds no byte (log 2). -/
abbrev Mem := List Host.Cell

/-- The state of the machine (R37), with the program text, the byte order and the number of free values taken
(log 1, 3, 4). -/
structure State where
  /-- R0 to R14. -/
  common : Vector Word 15
  /-- R8_fiq to R14_fiq. -/
  fiq : Vector Word 7
  /-- R13_irq, R14_irq. -/
  irq : Vector Word 2
  /-- R13_svc, R14_svc. -/
  svc : Vector Word 2
  /-- R13_abt, R14_abt. -/
  abt : Vector Word 2
  /-- R13_und, R14_und. -/
  und : Vector Word 2
  /-- The address of the instruction being executed (R34). -/
  pc : Word
  cpsr : Psr
  spsrFiq : Psr
  spsrIrq : Psr
  spsrSvc : Psr
  spsrAbt : Psr
  spsrUnd : Psr
  /-- The program text (R43). No instruction changes it (R42, R50). -/
  mem : Mem
  /-- The byte order of instruction fetch (R43). No instruction changes it. -/
  order : ByteOrder
  /-- The model's own field (log 4): how many free values have been taken. -/
  draws : Nat
  deriving DecidableEq, Repr

/-- Why the machine stops. The first five are the spec's closed list (93_implementation_defined.md A4). -/
inductive Fault where
  /-- Raised by MRS with Rd = 15 (R72). Safe: the spec faults here. -/
  | mrsRdIsPc
  /-- Raised by MRS and MSR naming the SPSR in a mode that has none (R71, R78). Safe: the spec faults here. -/
  | noSpsrInMode
  /-- Raised by MSR, register form, with Rm = 15 (R79). Safe: the spec faults here. -/
  | msrRmIsPc
  /-- Raised by MSR to the CPSR that would change T (R76). Safe: the spec faults here. -/
  | msrWritesT
  /-- Raised by a privileged MSR to the CPSR, and by `exceptionReturn`, when the mode to be written is none of
  the seven (R27, R76). Safe: the spec faults here. -/
  | invalidMode
  /-- Raised by `fetch` where Text(pc) is undefined: the spec says there is no step (R38 line 2, R43). Safe. -/
  | stuck
  /-- Raised by an instruction that names R13 or R14 while CPSR.M is no mode, which the spec's invariant on
  CPSR.M excludes (R27). Safe (log 7): no run from a launch state reaches it. -/
  | currentModeNotValid
  deriving DecidableEq, Repr

/-- Why the machine gives a step no meaning. All but the first are the spec's closed list (93 A4). -/
inductive Refusal where
  /-- Raised by `exec` for an instruction not modelled yet. Safe. No instruction of this model answers it. -/
  | notModelled (mnemonic : String)
  /-- Raised by `fetch` when CPSR.T = 1 (R65). Safe. -/
  | thumbState
  /-- Raised by `fetch` for a word with condition 1111 (R63). Safe. -/
  | condNV
  /-- Raised by `fetch` for a word of no row of the table (R59, R60). Safe. -/
  | notAnInScopeInstruction
  /-- Raised by `fetch`, and by BIC and ORR themselves, for the PC as an operand of BIC or ORR (R81). Safe. -/
  | pcOperand
  /-- Raised by every instruction at pc = 0xFFFFFFFC (R45). Safe. -/
  | pcWrap
  deriving DecidableEq, Repr

/-- A PSR whose eight fields are 0: the value the model names for the SPSRs at reset (log 5). -/
def zeroPsr : Psr :=
  { n := false, z := false, c := false, v := false, i := false, f := false, t := false, m := 0#5 }

/-- The machine right after reset (R36, R100): Supervisor mode, IRQ and FIQ disabled, ARM state, pc = 0. The
flags, the general registers and the SPSRs have no value in the spec: zero is the model's choice (log 5). -/
def State.reset : State where
  common := Vector.replicate 15 0#32
  fiq := Vector.replicate 7 0#32
  irq := Vector.replicate 2 0#32
  svc := Vector.replicate 2 0#32
  abt := Vector.replicate 2 0#32
  und := Vector.replicate 2 0#32
  pc := 0x00000000#32
  cpsr := { zeroPsr with i := true, f := true, t := false, m := 0b10011#5 }
  spsrFiq := zeroPsr
  spsrIrq := zeroPsr
  spsrSvc := zeroPsr
  spsrAbt := zeroPsr
  spsrUnd := zeroPsr
  mem := []
  order := Config.defaultOrder
  draws := 0

end Sys2Proof.Machine
end

