-- ==== Sys2Proof/Machine/Ops.lean ====
section
/-! DEFINITION. The named operations over memory, registers, the status registers and the pc; taking an exception
and returning from one. -/

namespace Sys2Proof.Machine

/-! ### Memory: the program text (R43) -/

/-- The byte held at an address, if any: the first entry with that address. -/
def readAt (a : Nat) : Mem → Option Byte
  | [] => none
  | (k, b) :: rest => if k = a then some b else readAt a rest

/-- Put a byte at an address, keeping the addresses rising. -/
def writeAt (a : Nat) (v : Byte) : Mem → Mem
  | [] => [(a, v)]
  | (k, b) :: rest =>
    if a < k then (a, v) :: (k, b) :: rest
    else if k = a then (a, v) :: rest
    else (k, b) :: writeAt a v rest

/-- Addresses rise strictly from `low` and stay inside the 2^32 bytes of the address space. -/
def risesFrom (low : Nat) : Mem → Bool
  | [] => true
  | (k, _) :: rest => decide (low ≤ k) && decide (k < 2 ^ 32) && risesFrom (k + 1) rest

/-- The canonical form of memory. An unlisted address holds no byte, so no entry can repeat what it reads as. -/
def Mem.wf (m : Mem) : Bool := risesFrom 0 m

def memRead (m : Mem) (a : Word) : Option Byte := readAt a.toNat m

def memWrite (m : Mem) (a : Word) (v : Byte) : Mem := writeAt a.toNat v m

/-- Write bytes one after another from an address on. -/
def placeBytes (m : Mem) (a : Word) : List Byte → Mem
  | [] => m
  | b :: bs => placeBytes (memWrite m a b) (a + 1#32) bs

/-- The byte of the program text at an address. -/
def State.byteAt (s : State) (a : Word) : Option Byte := memRead s.mem a

/-- The four bytes of the instruction at a word-aligned address; none where a byte of it is not there or the
address is not aligned, since Text is defined on aligned addresses only (R43, R44). -/
def State.textBytes (s : State) (a : Word) : Option (Byte × Byte × Byte × Byte) :=
  if a.toNat % 4 = 0 then
    match s.byteAt a, s.byteAt (a + 1#32), s.byteAt (a + 2#32), s.byteAt (a + 3#32) with
    | some b0, some b1, some b2, some b3 => some (b0, b1, b2, b3)
    | _, _, _, _ => none
  else none

/-- Text(a): the instruction word at an address, in the machine's byte order (R43). -/
def State.text (s : State) (a : Word) : Option Word :=
  match s.textBytes a with
  | some (b0, b1, b2, b3) => some (wordOfBytes s.order b0 b1 b2 b3)
  | none => none

/-- Load an instruction word into the program text: what a loader does before a run (log 8). -/
def State.loadWord (s : State) (a : Word) (w : Word) : State :=
  { s with mem := placeBytes s.mem a (bytesOfWord s.order w) }

/-! ### Modes and banks -/

/-- The mode table (R26). -/
def Mode.bits : Mode → ModeBits
  | .user => 0b10000#5
  | .fiq => 0b10001#5
  | .irq => 0b10010#5
  | .supervisor => 0b10011#5
  | .abort => 0b10111#5
  | .undefined => 0b11011#5
  | .system => 0b11111#5

/-- The mode that five bits name, if they name one (R27). -/
def Mode.ofBits (b : ModeBits) : Option Mode :=
  match b.toNat with
  | 0x10 => some .user
  | 0x11 => some .fiq
  | 0x12 => some .irq
  | 0x13 => some .supervisor
  | 0x17 => some .abort
  | 0x1B => some .undefined
  | 0x1F => some .system
  | _ => none

/-- ValidMode (R7, R27): one of the seven values. -/
def validMode (b : ModeBits) : Bool := (Mode.ofBits b).isSome

/-- Privileged (R93): every mode but User. -/
def privileged (b : ModeBits) : Bool := b != 0b10000#5

/-- The bank of a mode (R12): none in User and System mode. -/
def Mode.bank : Mode → Option Bank
  | .user => none
  | .fiq => some .fiq
  | .irq => some .irq
  | .supervisor => some .svc
  | .abort => some .abt
  | .undefined => some .und
  | .system => none

/-- `spsr_bank` (R12). Five bits that name no mode have no bank (log 7). -/
def spsrBank (b : ModeBits) : Option Bank :=
  match Mode.ofBits b with
  | some md => md.bank
  | none => none

/-- The banked R13 (`k = 0`) or R14 (`k = 1`) of a bank (R30). -/
def Bank.high (b : Bank) (k : Fin 2) : PhysReg :=
  match b with
  | .fiq => .fiq ⟨k.val + 5, by omega⟩
  | .irq => .irq k
  | .svc => .svc k
  | .abt => .abt k
  | .und => .und k

/-- `phys` (R32): the register that number `n` names in the mode `b`. None for number 15, which is the PC, and for
R13 and R14 when `b` is no mode (log 7). -/
def phys (b : ModeBits) (n : RegNum) : Option PhysReg :=
  if _ : n.toNat ≤ 7 then some (.common ⟨n.toNat, by omega⟩)
  else if _ : n.toNat ≤ 12 then
    if b = 0b10001#5 then some (.fiq ⟨n.toNat - 8, by omega⟩) else some (.common ⟨n.toNat, by omega⟩)
  else if _ : n.toNat ≤ 14 then
    match Mode.ofBits b with
    | none => none
    | some md =>
      match md.bank with
      | none => some (.common ⟨n.toNat, by omega⟩)
      | some k => some (k.high ⟨n.toNat - 13, by omega⟩)
  else none

/-! ### General registers -/

/-- What a register of the machine holds. -/
def State.readPhys (s : State) : PhysReg → Word
  | .common k => s.common[k]
  | .fiq k => s.fiq[k]
  | .irq k => s.irq[k]
  | .svc k => s.svc[k]
  | .abt k => s.abt[k]
  | .und k => s.und[k]

/-- Put a word into a register of the machine. -/
def State.writePhys (s : State) (r : PhysReg) (v : Word) : State :=
  match r with
  | .common k => { s with common := s.common.set k v }
  | .fiq k => { s with fiq := s.fiq.set k v }
  | .irq k => { s with irq := s.irq.set k v }
  | .svc k => { s with svc := s.svc.set k v }
  | .abt k => { s with abt := s.abt.set k v }
  | .und k => { s with und := s.und.set k v }

/-- `x[n]` (R7): register `n` as seen in the current mode. -/
def State.readReg (s : State) (n : RegNum) : Option Word :=
  match phys s.cpsr.m n with
  | some r => some (s.readPhys r)
  | none => none

/-- `x[n] <- v` (R7). -/
def State.writeReg (s : State) (n : RegNum) (v : Word) : Option State :=
  match phys s.cpsr.m n with
  | some r => some (s.writePhys r v)
  | none => none

/-! ### Status registers -/

/-- `SPSR[b]`. -/
def State.spsr (s : State) : Bank → Psr
  | .fiq => s.spsrFiq
  | .irq => s.spsrIrq
  | .svc => s.spsrSvc
  | .abt => s.spsrAbt
  | .und => s.spsrUnd

/-- `SPSR[b] <- p`. -/
def State.setSpsr (s : State) (b : Bank) (p : Psr) : State :=
  match b with
  | .fiq => { s with spsrFiq := p }
  | .irq => { s with spsrIrq := p }
  | .svc => { s with spsrSvc := p }
  | .abt => { s with spsrAbt := p }
  | .und => { s with spsrUnd := p }

/-- `CPSR <- p`. -/
def State.setCpsr (s : State) (p : Psr) : State := { s with cpsr := p }

/-- The status register that an R bit names in the current mode (R12, R55). -/
def State.selectedPsr (s : State) : PsrSel → Option Psr
  | .cpsr => some s.cpsr
  | .spsr =>
    match spsrBank s.cpsr.m with
    | some b => some (s.spsr b)
    | none => none

/-- `PsrWord(p, d)` (R7, R15): the 32-bit image of a PSR with `d` in the reserved bits 27:8. -/
def psrWord (p : Psr) (d : BitVec 20) : Word :=
  BitVec.ofBool p.n ++ BitVec.ofBool p.z ++ BitVec.ofBool p.c ++ BitVec.ofBool p.v ++ d ++
    BitVec.ofBool p.i ++ BitVec.ofBool p.f ++ BitVec.ofBool p.t ++ p.m

/-- The mode field of a word in PSR layout (R13). -/
def modeField (w : Word) : ModeBits := w.extractLsb' 0 5

/-- Take N, Z, C and V from the word (R76, R77: field `f`). -/
def Psr.withFlags (p : Psr) (w : Word) : Psr :=
  { p with n := w.getLsbD 31, z := w.getLsbD 30, c := w.getLsbD 29, v := w.getLsbD 28 }

/-- Take I, F and M from the word, leaving T (R76: field `c` of the CPSR). -/
def Psr.withControl (p : Psr) (w : Word) : Psr :=
  { p with i := w.getLsbD 7, f := w.getLsbD 6, m := modeField w }

/-- Take I, F, T and M from the word (R77: field `c` of an SPSR). -/
def Psr.withControlAndT (p : Psr) (w : Word) : Psr :=
  { p with i := w.getLsbD 7, f := w.getLsbD 6, t := w.getLsbD 5, m := modeField w }

/-- The stored fields of a word in PSR layout (R13, R15). -/
def psrOfWord (w : Word) : Psr := (zeroPsr.withFlags w).withControlAndT w

/-! ### The pc and the free values -/

/-- `pc <- pc + 4` (R34). -/
def State.advancePc (s : State) : State := { s with pc := s.pc + 4#32 }

/-- The one address whose next sequential address would wrap (R45). -/
def lastWordAddress : Word := 0xFFFFFFFC#32

/-- Count `k` free values as taken (log 4). -/
def State.drew (s : State) (k : Nat) : State := { s with draws := s.draws + k }

/-- Lines 6 to 8 of the step (R38): when the condition fails only the pc advances (R61); when it passes the
instruction's rule runs, and a result has its pc advanced. -/
def State.guarded (s : State) (passed : Bool)
    (rule : State → Host.Outcome State Fault Refusal) : Host.Outcome State Fault Refusal :=
  if passed then
    match rule s with
    | .next u => .next u.advancePc
    | .fault r => .fault r
    | .refused r => .refused r
  else .next s.advancePc

/-! ### Exceptions (60_exceptions.md)

The sequences of R89 and R95. No step calls them, because the spec's machine takes no exception and delivers no
interrupt (R91, D16; log 6). -/

/-- The mode an exception enters (R86). -/
def Exn.mode : Exn → Mode
  | .reset => .supervisor
  | .undefinedInstruction => .undefined
  | .softwareInterrupt => .supervisor
  | .prefetchAbort => .abort
  | .dataAbort => .abort
  | .irq => .irq
  | .fiq => .fiq

/-- The bank an exception saves into (R12, R86, R89). -/
def Exn.bank : Exn → Bank
  | .reset => .svc
  | .undefinedInstruction => .und
  | .softwareInterrupt => .svc
  | .prefetchAbort => .abt
  | .dataAbort => .abt
  | .irq => .irq
  | .fiq => .fiq

/-- The vector addresses (R90). -/
def Exn.vector : Exn → Word
  | .reset => 0x00000000#32
  | .undefinedInstruction => 0x00000004#32
  | .softwareInterrupt => 0x00000008#32
  | .prefetchAbort => 0x0000000C#32
  | .dataAbort => 0x00000010#32
  | .irq => 0x00000018#32
  | .fiq => 0x0000001C#32

/-- What the return link adds to the address in the pc (R89), which is the address of the instruction that took
the exception, or for IRQ and FIQ of the next instruction to be executed. None for Reset, whose link is
unpredictable. -/
def Exn.linkOffset : Exn → Option Word
  | .reset => none
  | .undefinedInstruction => some 4#32
  | .softwareInterrupt => some 4#32
  | .prefetchAbort => some 4#32
  | .dataAbort => some 8#32
  | .irq => some 4#32
  | .fiq => some 4#32

/-- Whether entry sets CPSR.F: on Reset and FIQ only (R89). -/
def Exn.disablesFiq : Exn → Bool
  | .reset => true
  | .fiq => true
  | .undefinedInstruction => false
  | .softwareInterrupt => false
  | .prefetchAbort => false
  | .dataAbort => false
  | .irq => false

/-- The fixed priority, 0 the highest (R92). Undefined instruction and SWI exclude each other. -/
def Exn.rank : Exn → Nat
  | .reset => 0
  | .dataAbort => 1
  | .fiq => 2
  | .irq => 3
  | .prefetchAbort => 4
  | .undefinedInstruction => 5
  | .softwareInterrupt => 5

/-- The return link an exception leaves in R14 of its bank (R89): a free value for Reset. -/
def State.linkFor (s : State) (e : Exn) : Word :=
  match e.linkOffset with
  | some k => s.pc + k
  | none => Config.resetWord s.draws

/-- What an exception leaves in the SPSR of its bank: the CPSR (R10, R85, R89), but for Reset, after which SPSR_svc
is unspecified (R100): a free value. -/
def State.savedFor (s : State) (e : Exn) : Psr :=
  match e.linkOffset with
  | some _ => s.cpsr
  | none => psrOfWord (Config.resetWord (s.draws + 1))

/-- The CPSR after entry (R89): the exception's mode, ARM state, IRQ disabled, FIQ disabled on Reset and FIQ. -/
def Psr.enter (p : Psr) (e : Exn) : Psr :=
  { p with m := e.mode.bits, t := false, i := true, f := p.f || e.disablesFiq }

/-- TAKING AN EXCEPTION (R89): the link, the saved CPSR, the new CPSR and the vector. DESIGN CHOICE (log 6): what the
spec calls unspecified after Reset (R36) and names no value for, that is the flags, the general registers but R14_svc,
and SPSR_fiq, SPSR_irq, SPSR_abt and SPSR_und, keeps the value it had. -/
def State.takeException (s : State) (e : Exn) : State :=
  let linked := s.writePhys (e.bank.high 1) (s.linkFor e)
  let saved := linked.setSpsr e.bank (s.savedFor e)
  let entered := saved.setCpsr (s.cpsr.enter e)
  { entered.drew (if e = .reset then 2 else 0) with pc := e.vector }

/-- RETURNING FROM AN EXCEPTION (R94 d, R95): the current mode's SPSR is copied to the CPSR, which restores mode,
state, interrupt bits and flags at once, and control goes to `target`. Stops where there is no SPSR (R12) and
where the saved mode bits are no mode (R27). DESIGN CHOICE (log 6): the spec does not say what a return to an address
that is not a multiple of 4 does. Here `target` goes to the pc as it is, and the next fetch there is stuck (R44). -/
def State.exceptionReturn (s : State) (target : Word) : Host.Outcome State Fault Refusal :=
  match spsrBank s.cpsr.m with
  | none => .fault .noSpsrInMode
  | some b =>
    if validMode (s.spsr b).m then .next { s.setCpsr (s.spsr b) with pc := target }
    else .fault .invalidMode

/-- Which interrupt a CPSR lets in when the two request inputs are as given (R86, R88): FIQ before IRQ (R92). -/
def interruptAdmitted (p : Psr) (irqInput fiqInput : Bool) : Option Exn :=
  if fiqInput && !p.f then some .fiq
  else if irqInput && !p.i then some .irq
  else none

end Sys2Proof.Machine
end

