-- ==== Sys2Proof/Machine/Operands.lean ====
section
/-! DEFINITION. The operand forms: the rotated 8-bit immediate and the assembler's choice of one. -/

namespace Sys2Proof.Machine

/-- `ROR32(v, n)` for n in 0..31 (R7): `v` itself when n = 0. -/
def ror32 (v : Word) (n : Nat) : Word := (v >>> n) ||| (v <<< (32 - n))

/-- The immediate operand of MSR, BIC and ORR (R58, R74, R81): the 8-bit value, zero-extended, rotated right by
twice the 4-bit rotate field. -/
def imm32 (rot : BitVec 4) (imm : Byte) : Word := ror32 (imm.setWidth 32) (2 * rot.toNat)

/-- The letters of `<fields>` (R57, R67). -/
inductive FieldLetter where
  | c | x | s | f
  deriving DecidableEq, Repr

/-- The field_mask bit a letter sets (R57). -/
def FieldLetter.index : FieldLetter → Nat
  | .c => 0
  | .x => 1
  | .s => 2
  | .f => 3

/-- The field mask that a set of letters, in any order, stands for (R67). -/
def maskOf : List FieldLetter → FieldMask
  | [] => 0#4
  | l :: ls => (1#4 <<< l.index) ||| maskOf ls

/-- The 8-bit value that `rot` needs to give `v`, if there is one. -/
def immFor (v : Word) (rot : BitVec 4) : Option Byte :=
  let back := ror32 v ((32 - 2 * rot.toNat) % 32)
  if back.toNat < 256 then some (back.setWidth 8) else none

/-- Try the rotations in order and give the first that works. -/
def firstRotation (v : Word) : List (BitVec 4) → Option (BitVec 4 × Byte)
  | [] => none
  | r :: rs =>
    match immFor v r with
    | some b => some (r, b)
    | none => firstRotation v rs

/-- The assembler's encoding of `#v`: the smallest rotate_imm that works (R67). -/
def assembleImm (v : Word) : Option (BitVec 4 × Byte) :=
  firstRotation v [0#4, 1#4, 2#4, 3#4, 4#4, 5#4, 6#4, 7#4, 8#4, 9#4, 10#4, 11#4, 12#4, 13#4, 14#4, 15#4]

end Sys2Proof.Machine
end

