-- ==== Sys2Proof/Machine/Flags.lean ====
section
/-! DEFINITION. The condition test, and what the four flags mean. -/

namespace Sys2Proof.Machine

/-- `CondPassed(c)` on the flags of a PSR (R62). -/
def condPassed (c : Cond) (p : Psr) : Bool :=
  match c with
  | .eq => p.z
  | .ne => !p.z
  | .cs => p.c
  | .cc => !p.c
  | .mi => p.n
  | .pl => !p.n
  | .vs => p.v
  | .vc => !p.v
  | .hi => p.c && !p.z
  | .ls => !p.c || p.z
  | .ge => p.n == p.v
  | .lt => p.n != p.v
  | .gt => !p.z && (p.n == p.v)
  | .le => p.z || (p.n != p.v)
  | .al => true

/-- The step's lines 5 to 8 for an instruction with condition `c` (R38): the word at the top of the address space
is refused before the condition is tested (R45). -/
def State.runRule (s : State) (c : Cond) (rule : State → Host.Outcome State Fault Refusal) :
    Host.Outcome State Fault Refusal :=
  if s.pc = lastWordAddress then .refused .pcWrap else s.guarded (condPassed c s.cpsr) rule

/-! The meaning of the flag bits that MRS reads and MSR writes (R20 to R24, R112). No instruction in scope sets a
flag from a result, so no meaning calls these: they record what the spec gives (log 9). -/

/-- N: bit 31 of the result (R21). -/
def flagN (result : Word) : Bool := result.getLsbD 31

/-- Z: the result is zero (R22). -/
def flagZ (result : Word) : Bool := result == 0#32

/-- C of an addition: the exact unsigned sum does not fit in 32 bits (R23 a). -/
def flagCAdd (a b : Word) : Bool := decide (2 ^ 32 ≤ a.toNat + b.toNat)

/-- C of a subtraction: the negated borrow (R23 b). -/
def flagCSub (a b : Word) : Bool := decide (b.toNat ≤ a.toNat)

/-- The ways a word can be shifted. The spec speaks of an operation with a shift and of no kinds of it: these are the
family's (PRESUMED, log 9). -/
inductive ShiftKind where
  | left | logicalRight | arithmeticRight | rotateRight
  deriving DecidableEq, Repr

/-- A word shifted by one place. -/
def shiftOnce (k : ShiftKind) (v : Word) : Word :=
  match k with
  | .left => v <<< 1
  | .logicalRight => v >>> 1
  | .arithmeticRight => v.sshiftRight 1
  | .rotateRight => ror32 v 1

/-- The bit that a shift by one place pushes out. -/
def shiftedOut (k : ShiftKind) (v : Word) : Bool :=
  match k with
  | .left => v.getLsbD 31
  | .logicalRight => v.getLsbD 0
  | .arithmeticRight => v.getLsbD 0
  | .rotateRight => v.getLsbD 0

/-- A word shifted by `n` places, one after another. -/
def shiftBy (k : ShiftKind) (v : Word) : Nat → Word
  | 0 => v
  | n + 1 => shiftOnce k (shiftBy k v n)

/-- C after an operation that shifts `v` by `n` places: the last bit shifted out (R23 c, G5). With no place shifted
nothing goes out, and C stays what it was (DEDUCED from R23 d, log 9). -/
def flagCShift (k : ShiftKind) (v : Word) (n : Nat) (c : Bool) : Bool :=
  match n with
  | 0 => c
  | m + 1 => shiftedOut k (shiftBy k v m)

/-- An integer that no 32-bit two's-complement word holds. -/
def signedOverflow (exact : Int) : Bool := decide (exact < -(2 ^ 31)) || decide (2 ^ 31 ≤ exact)

/-- V of an addition: signed overflow (R24). -/
def flagVAdd (a b : Word) : Bool := signedOverflow (a.toInt + b.toInt)

/-- V of a subtraction: signed overflow (R24). -/
def flagVSub (a b : Word) : Bool := signedOverflow (a.toInt - b.toInt)

end Sys2Proof.Machine
end

