-- ==== Sys2Proof/Machine/DataProcessing.lean ====
section
/-! DEFINITION. BIC and ORR with an immediate, no S (42_example_support.md). -/

namespace Sys2Proof.Machine

/-- `x[Rd] <- f(x[Rn])` (R82, R83): Rn is read before Rd is written, and no flag changes. -/
def dpRule (f : Word → Word) (rd rn : RegNum) (s : State) : Host.Outcome State Fault Refusal :=
  match s.readReg rn with
  | none => .fault .currentModeNotValid
  | some v =>
    match s.writeReg rd (f v) with
    | none => .fault .currentModeNotValid
    | some u => .next u

/-- The PC as an operand is refused whether or not the condition passes (R81). The decoder never gives such a
term, so this is for `exec` on terms that no word stands for (log 10). -/
def refusePc (rd rn : RegNum) (answer : Host.Outcome State Fault Refusal) : Host.Outcome State Fault Refusal :=
  if rn = 15#4 ∨ rd = 15#4 then .refused .pcOperand else answer

/-- `BIC{cond} Rd, Rn, #immediate` (R82). -/
def execBic (cond : Cond) (rd rn : RegNum) (rot : BitVec 4) (imm : Byte) (s : State) :
    Host.Outcome State Fault Refusal :=
  refusePc rd rn (s.runRule cond (dpRule (fun v => v &&& ~~~(imm32 rot imm)) rd rn))

/-- `ORR{cond} Rd, Rn, #immediate` (R83). -/
def execOrr (cond : Cond) (rd rn : RegNum) (rot : BitVec 4) (imm : Byte) (s : State) :
    Host.Outcome State Fault Refusal :=
  refusePc rd rn (s.runRule cond (dpRule (fun v => v ||| imm32 rot imm) rd rn))

end Sys2Proof.Machine
end

