-- ==== Sys2Proof/Machine/Mrs.lean ====
section
/-! DEFINITION. MRS (40_mrs.md). -/

namespace Sys2Proof.Machine

/-- The rule of MRS (R70): Rd = 15 faults first (R72), then a mode without an SPSR (R71); the PSR's image goes to
Rd with a fresh free value in bits 27:8 (R15). -/
def mrsRule (psr : PsrSel) (rd : RegNum) (s : State) : Host.Outcome State Fault Refusal :=
  if rd = 15#4 then .fault .mrsRdIsPc
  else
    match s.selectedPsr psr with
    | none => .fault .noSpsrInMode
    | some p =>
      match s.writeReg rd (psrWord p (Config.reservedBits s.draws)) with
      | none => .fault .currentModeNotValid
      | some u => .next (u.drew 1)

/-- `MRS{cond} Rd, CPSR` and `MRS{cond} Rd, SPSR` (R70). -/
def execMrs (cond : Cond) (psr : PsrSel) (rd : RegNum) (s : State) : Host.Outcome State Fault Refusal :=
  s.runRule cond (mrsRule psr rd)

end Sys2Proof.Machine
end

