-- ==== Sys2Proof/Machine/Msr.lean ====
section
/-! DEFINITION. MSR in its four forms (41_msr.md). -/

namespace Sys2Proof.Machine

/-- The CPSR after an MSR that does not fault (R76): `f` takes the flags in every mode, `c` takes I, F and M in a
privileged mode and is ignored in User mode; `x`, `s` and bits 27:24 are discarded. -/
def Psr.afterMsrCpsr (p : Psr) (mask : FieldMask) (operand : Word) : Psr :=
  let flagged := if mask.getLsbD 3 then p.withFlags operand else p
  if mask.getLsbD 0 && privileged p.m then flagged.withControl operand else flagged

/-- An SPSR after an MSR (R77): `f` takes the flags, `c` takes I, F, T and M; nothing else is stored. -/
def Psr.afterMsrSpsr (p : Psr) (mask : FieldMask) (operand : Word) : Psr :=
  let flagged := if mask.getLsbD 3 then p.withFlags operand else p
  if mask.getLsbD 0 then flagged.withControlAndT operand else flagged

/-- MSR to the CPSR with its operand in hand (R76): the T test in every mode, then the mode test. -/
def msrCpsrRule (mask : FieldMask) (operand : Word) (s : State) : Host.Outcome State Fault Refusal :=
  if mask.getLsbD 0 && operand.getLsbD 5 != s.cpsr.t then .fault .msrWritesT
  else if mask.getLsbD 0 && privileged s.cpsr.m && !validMode (modeField operand) then .fault .invalidMode
  else .next (s.setCpsr (s.cpsr.afterMsrCpsr mask operand))

/-- MSR to the SPSR with its operand in hand (R77, R78). -/
def msrSpsrRule (mask : FieldMask) (operand : Word) (s : State) : Host.Outcome State Fault Refusal :=
  match spsrBank s.cpsr.m with
  | none => .fault .noSpsrInMode
  | some b => .next (s.setSpsr b ((s.spsr b).afterMsrSpsr mask operand))

/-- The register operand of MSR (R74): Rm = 15 faults before anything else is looked at (R79). -/
def withRm (rm : RegNum) (rule : Word → State → Host.Outcome State Fault Refusal) (s : State) :
    Host.Outcome State Fault Refusal :=
  if rm = 15#4 then .fault .msrRmIsPc
  else
    match s.readReg rm with
    | none => .fault .currentModeNotValid
    | some v => rule v s

/-- `MSR{cond} CPSR_<fields>, Rm` (R76). -/
def execMsrCpsrReg (cond : Cond) (mask : FieldMask) (rm : RegNum) (s : State) :
    Host.Outcome State Fault Refusal :=
  s.runRule cond (withRm rm (msrCpsrRule mask))

/-- `MSR{cond} SPSR_<fields>, Rm` (R77). -/
def execMsrSpsrReg (cond : Cond) (mask : FieldMask) (rm : RegNum) (s : State) :
    Host.Outcome State Fault Refusal :=
  s.runRule cond (withRm rm (msrSpsrRule mask))

/-- `MSR{cond} CPSR_<fields>, #immediate` (R76). -/
def execMsrCpsrImm (cond : Cond) (mask : FieldMask) (rot : BitVec 4) (imm : Byte) (s : State) :
    Host.Outcome State Fault Refusal :=
  s.runRule cond (msrCpsrRule mask (imm32 rot imm))

/-- `MSR{cond} SPSR_<fields>, #immediate` (R77). -/
def execMsrSpsrImm (cond : Cond) (mask : FieldMask) (rot : BitVec 4) (imm : Byte) (s : State) :
    Host.Outcome State Fault Refusal :=
  s.runRule cond (msrSpsrRule mask (imm32 rot imm))

end Sys2Proof.Machine
end

