-- ==== Sys2Proof/Machine/Dispatch.lean ====
section
/-! DEFINITION. One arm per instruction: each is one call of its meaning. -/

namespace Sys2Proof.Machine

def exec (i : Instr) (s : State) : Host.Outcome State Fault Refusal :=
  match i with
  | .mrs cond psr rd => Sys2Proof.Machine.execMrs cond psr rd s
  | .msrCpsrReg cond mask rm => Sys2Proof.Machine.execMsrCpsrReg cond mask rm s
  | .msrSpsrReg cond mask rm => Sys2Proof.Machine.execMsrSpsrReg cond mask rm s
  | .msrCpsrImm cond mask rot imm => Sys2Proof.Machine.execMsrCpsrImm cond mask rot imm s
  | .msrSpsrImm cond mask rot imm => Sys2Proof.Machine.execMsrSpsrImm cond mask rot imm s
  | .bic cond rd rn rot imm => Sys2Proof.Machine.execBic cond rd rn rot imm s
  | .orr cond rd rn rot imm => Sys2Proof.Machine.execOrr cond rd rn rot imm s

end Sys2Proof.Machine
end

