-- ==== Sys2Proof/Machine/Fetch.lean ====
section
/-! DEFINITION. Lines 1 to 4 of the step (10_state.md R38): the instruction at the pc, or why there is none. -/

namespace Sys2Proof.Machine

/-- How a word that is no instruction ends the step (R38 lines 3 and 4). -/
def rejection : DecodeError → Host.Outcome Instr Fault Refusal
  | .truncated => .fault .stuck
  | .condNV => .refused .condNV
  | .notAnInScopeInstruction => .refused .notAnInScopeInstruction
  | .pcOperand => .refused .pcOperand

/-- The instruction the step is to run (R38 lines 1 to 4): Thumb state is refused first (R65), then no text at the
pc is stuck (R43), then the word is decoded. -/
def fetch (s : State) : Host.Outcome Instr Fault Refusal :=
  if s.cpsr.t then .refused .thumbState
  else
    match s.textBytes s.pc with
    | none => .fault .stuck
    | some (b0, b1, b2, b3) =>
      match decodeBytes s.order [b0, b1, b2, b3] with
      | .ok (i, _) => .next i
      | .error e => rejection e

end Sys2Proof.Machine
end

