-- ==== Sys2Proof/Machine/Step.lean ====
section
/-! DEFINITION. One step of the machine (10_state.md R38), and the placing of an instruction where it fetches. -/

namespace Sys2Proof.Machine

/-- One step (R38): fetch and decode (lines 1 to 4), then run the instruction (lines 5 to 8). -/
def step (s : State) : Host.Outcome State Fault Refusal :=
  match fetch s with
  | .next i => exec i s
  | .fault r => .fault r
  | .refused r => .refused r

/-- The state with the instruction word `w` placed at the pc, in the machine's byte order (log 8). -/
def State.withFetchWord (s : State) (nbits w : Nat) : State := s.loadWord s.pc (tableWord nbits w)

end Sys2Proof.Machine
end

