-- ==== Sys2Proof/Safety.lean ====
section
/-! DEFINITION. What holds of every state of a run, what a finished run is, and the words in which statements say
what an instruction leaves alone. -/

namespace Sys2Proof.Machine

/-- The invariant of the machine (R37): what every step keeps. -/
structure Invariant (s : State) : Prop where
  /-- pc is a multiple of 4 (R34, R44). -/
  aligned : s.pc.toNat % 4 = 0
  /-- CPSR.T = 0 (R28, R65). -/
  armState : s.cpsr.t = false
  /-- CPSR.M is one of the seven modes (R27). -/
  legalMode : validMode s.cpsr.m = true
  /-- The program text is in its canonical form. -/
  canonical : s.mem.wf = true

/-- A launch state (R103): the invariant, and there is an instruction word at the pc. Of R103's other premises none is a
property of a state here: a fault is an outcome and is recorded in no state (log 14), no step takes an exception or an
interrupt (log 6), and every register holds a value (log 5). -/
structure Launch (s : State) : Prop extends Invariant s where
  /-- Text(pc) is defined (R43, R44). -/
  textAtPc : (s.text s.pc).isSome = true

/-- A finished run (R103, D20): steps from `s` until the pc is `stop` for the first time, in the state `t`. A run
that faults, is refused or is stuck before that has no final state. -/
inductive RunsTo (stop : Word) : State → State → Prop where
  | here {s : State} : s.pc = stop → RunsTo stop s s
  | more {s u t : State} : s.pc ≠ stop → step s = .next u → RunsTo stop u t → RunsTo stop s t

/-- The instruction at the pc is not refused for its address (R45) and its condition passes (R61). -/
abbrev Ready (c : Cond) (s : State) : Prop := s.pc ≠ lastWordAddress ∧ condPassed c s.cpsr = true

/-- Whether an operand is one that MSR to the CPSR accepts in the state (R76): when `c` is selected, bit 5 is
CPSR.T and, in a privileged mode, bits 4:0 are one of the seven modes. -/
abbrev CpsrOperandOk (mask : FieldMask) (w : Word) (s : State) : Prop :=
  mask.getLsbD 0 = true →
    w.getLsbD 5 = s.cpsr.t ∧ (s.cpsr.m ≠ 0b10000#5 → validMode (w.extractLsb' 0 5) = true)

/-- N, Z, C and V of `new` are bits 31:28 of the word when taken, else those of `old`. -/
def FlagsTaken (taken : Bool) (w : Word) (old new : Psr) : Prop :=
  if taken then
    new.n = w.getLsbD 31 ∧ new.z = w.getLsbD 30 ∧ new.c = w.getLsbD 29 ∧ new.v = w.getLsbD 28
  else new.n = old.n ∧ new.z = old.z ∧ new.c = old.c ∧ new.v = old.v

/-- I, F and M of `new` are bits 7, 6 and 4:0 of the word when taken, else those of `old`. -/
def ControlTaken (taken : Bool) (w : Word) (old new : Psr) : Prop :=
  if taken then new.i = w.getLsbD 7 ∧ new.f = w.getLsbD 6 ∧ new.m = w.extractLsb' 0 5
  else new.i = old.i ∧ new.f = old.f ∧ new.m = old.m

/-- The MSR instructions that name the CPSR, with the operand they take in a state. -/
inductive MsrToCpsr (c : Cond) (mask : FieldMask) (w : Word) (s : State) : Instr → Prop where
  | register {rm : RegNum} : s.readReg rm = some w → MsrToCpsr c mask w s (.msrCpsrReg c mask rm)
  | immediate {rot : BitVec 4} {imm : Byte} : imm32 rot imm = w → MsrToCpsr c mask w s (.msrCpsrImm c mask rot imm)

/-- The MSR instructions that name the SPSR, with the operand they take in a state. -/
inductive MsrToSpsr (c : Cond) (mask : FieldMask) (w : Word) (s : State) : Instr → Prop where
  | register {rm : RegNum} : s.readReg rm = some w → MsrToSpsr c mask w s (.msrSpsrReg c mask rm)
  | immediate {rot : BitVec 4} {imm : Byte} : imm32 rot imm = w → MsrToSpsr c mask w s (.msrSpsrImm c mask rot imm)

/-- Every byte of the program text reads as before, in the same byte order. -/
def SameText (s t : State) : Prop := (∀ a, t.byteAt a = s.byteAt a) ∧ t.order = s.order

/-- Every numbered register of every bank is as before. -/
def SameRegisters (s t : State) : Prop := ∀ r, t.readPhys r = s.readPhys r

/-- Every numbered register of every bank is as before, but for the one that number `n` names in `s`. -/
def SameRegistersExcept (n : RegNum) (s t : State) : Prop :=
  ∀ r, phys s.cpsr.m n ≠ some r → t.readPhys r = s.readPhys r

/-- Every SPSR is as before. -/
def SameSpsrs (s t : State) : Prop := ∀ b, t.spsr b = s.spsr b

end Sys2Proof.Machine
end

