-- ==== Sys2Proof/Certificates/Slice0/Obligations.lean ====
section
/-! DEFINITION. The statements for the provers. Each docstring names the rule of spec/ it formalises; where a clause
rests on a decision, a derivation or general knowledge that the spec marks as its own, the docstring says which. -/

open Sys2Proof Sys2Proof.Machine

/-! ### Reset, the invariant, runs -/

/-- R36, R100: the values the spec names for reset (its decision D17, general knowledge G8). -/
def Obligations.ResetHoldsTheNamedValues : Prop :=
  State.reset.cpsr.m = 0b10011#5 ∧ State.reset.cpsr.i = true ∧ State.reset.cpsr.f = true ∧
    State.reset.cpsr.t = false ∧ State.reset.pc = 0x00000000#32

/-- R37: the invariant holds at reset. -/
def Obligations.ResetMeetsInvariant : Prop := Invariant State.reset

/-- R27, R28, R34, R37: every step keeps the pc aligned, ARM state, a legal mode and canonical text (the spec's
decisions D2, D7, D12; the canonical form is the model's, log 2). -/
def Obligations.StepKeepsInvariant : Prop :=
  ∀ s t : State, Invariant s → step s = .next t → Invariant t

/-- R103, D20: a finished run ends at its stop address, in a state that meets the invariant. -/
def Obligations.FinishedRunKeepsInvariant : Prop :=
  ∀ (stop : Word) (s t : State), Invariant s → RunsTo stop s t → Invariant t ∧ t.pc = stop

/-- R94 c (derived by the spec), R18, R93: no instruction takes User mode out of User mode, or changes I, F, T, an
SPSR or a register that User mode cannot name. -/
def Obligations.UserModeIsNeverLeft : Prop :=
  ∀ s t : State, s.cpsr.m = 0b10000#5 → step s = .next t →
    t.cpsr.m = 0b10000#5 ∧ t.cpsr.i = s.cpsr.i ∧ t.cpsr.f = s.cpsr.f ∧ t.cpsr.t = s.cpsr.t ∧ SameSpsrs s t ∧
      ∀ r, (∀ n, phys 0b10000#5 n ≠ some r) → t.readPhys r = s.readPhys r

/-- R30, R12: whatever the mode, a step changes no register that the mode cannot name and no SPSR but the mode's. -/
def Obligations.StepTouchesOnlyItsOwnBanks : Prop :=
  ∀ s t : State, step s = .next t →
    (∀ r, (∀ n, phys s.cpsr.m n ≠ some r) → t.readPhys r = s.readPhys r) ∧
      ∀ b, spsrBank s.cpsr.m ≠ some b → t.spsr b = s.spsr b

/-- R42: no instruction reads or writes memory: over any other text it does the same, and leaves that text. -/
def Obligations.InstructionsAccessNoMemory : Prop :=
  ∀ (i : Instr) (s : State) (m : Mem),
    (∀ t, exec i s = .next t → t.mem = s.mem ∧ exec i { s with mem := m } = .next { t with mem := m }) ∧
      (∀ r, exec i s = .fault r → exec i { s with mem := m } = .fault r) ∧
      ∀ r, exec i s = .refused r → exec i { s with mem := m } = .refused r

/-! ### The step -/

/-- R38 (derived by the spec), R43: in ARM state, when the four bytes at an aligned pc decode to an instruction, the
step is that instruction run on the same state, with nothing around it. -/
def Obligations.StepRunsTheDecodedInstruction : Prop :=
  ∀ (s : State) (b0 b1 b2 b3 : Byte) (i : Instr),
    s.cpsr.t = false → s.pc.toNat % 4 = 0 → s.byteAt s.pc = some b0 → s.byteAt (s.pc + 1#32) = some b1 →
    s.byteAt (s.pc + 2#32) = some b2 → s.byteAt (s.pc + 3#32) = some b3 →
    decodeBytes s.order [b0, b1, b2, b3] = .ok (i, []) → step s = exec i s

/-- R38 lines 1 to 4 (derived by the spec): Thumb state is refused first (D12), missing text is stuck (D3), then the
decoder's refusals (D10, D11, D18). -/
def Obligations.StepStopsInTheOrderOfTheSpec : Prop :=
  ∀ s : State,
    (s.cpsr.t = true → step s = .refused .thumbState) ∧
      (s.cpsr.t = false → s.text s.pc = none → step s = .fault .stuck) ∧
      ∀ w, s.cpsr.t = false → s.text s.pc = some w →
        (decodeWord w = .error .condNV → step s = .refused .condNV) ∧
          (decodeWord w = .error .notAnInScopeInstruction → step s = .refused .notAnInScopeInstruction) ∧
          (decodeWord w = .error .pcOperand → step s = .refused .pcOperand) ∧
          ∀ i, decodeWord w = .ok i → step s = exec i s

/-- R38, R43, R51, R103: an instruction's own word, loaded at an aligned pc in either byte order, is what the next step
runs, and a state that meets the invariant becomes a launch state by it (the loader is the model's, log 8). -/
def Obligations.PlacedInstructionRuns : Prop :=
  ∀ (i : Instr) (s : State), WellFormed i → s.cpsr.t = false → s.pc.toNat % 4 = 0 →
    step (s.withFetchWord 32 (encode i).toNat) = exec i (s.withFetchWord 32 (encode i).toNat) ∧
      (Invariant s → Launch (s.withFetchWord 32 (encode i).toNat))

/-- R34 (decision D2), R111: an instruction that completes leaves the pc at the next word, without a wrap. -/
def Obligations.CompletedStepMovesToTheNextWord : Prop :=
  ∀ s t : State, Invariant s → step s = .next t → t.pc.toNat = s.pc.toNat + 4

/-- R45 (decision D3): every instruction at the last word of the address space is refused, whatever its condition. -/
def Obligations.LastWordIsRefused : Prop :=
  ∀ (i : Instr) (s : State), WellFormed i → s.pc = 0xFFFFFFFC#32 → exec i s = .refused .pcWrap

/-! ### Encoding -/

/-- R52, R53, R56, R81, R60: decoding an instruction's word gives the instruction back, all operands. -/
def Obligations.DecodeOfEncodeIsTheInstruction : Prop :=
  ∀ i : Instr, WellFormed i → decodeWord (encode i) = .ok i

/-- R59 (decision D10), R60: a word that decodes is the word of its instruction, every bit of it. -/
def Obligations.DecodedWordIsItsEncoding : Prop :=
  ∀ (w : Word) (i : Instr), decodeWord w = .ok i → encode i = w ∧ WellFormed i

/-- R60 (derived by the spec): no word is in two rows of the decoder table. -/
def Obligations.DecoderRowsAreDisjoint : Prop :=
  ∀ (r q : Row) (w : Word), r ∈ rows → q ∈ rows → r.hits w = true → q.hits w = true → r = q

/-- R63 (D11), R60, R81 (D18): what the decoder refuses, and the order of its refusals. -/
def Obligations.DecoderRefusesByName : Prop :=
  ∀ w : Word,
    (w.extractLsb' 28 4 = 0b1111#4 → decodeWord w = .error .condNV) ∧
      (w.extractLsb' 28 4 ≠ 0b1111#4 → (∀ r ∈ rows, r.hits w = false) →
        decodeWord w = .error .notAnInScopeInstruction) ∧
      (w.extractLsb' 28 4 ≠ 0b1111#4 → rowBic.hits w = true ∨ rowOrr.hits w = true →
        w.extractLsb' 16 4 = 15#4 ∨ w.extractLsb' 12 4 = 15#4 → decodeWord w = .error .pcOperand)

/-- R59 (decision D10), R56: a fill bit, or one of the fixed zeros 7:4 of MSR's register form, that holds the other
value makes the word no instruction in scope. -/
def Obligations.WrongFillBitIsRefused : Prop :=
  ∀ (c : Cond) (j : Nat),
    (∀ psr rd, j < 12 ∨ (16 ≤ j ∧ j < 20) →
      decodeWord (encode (.mrs c psr rd) ^^^ (1#32 <<< j)) = .error .notAnInScopeInstruction) ∧
      (∀ mask rm, 4 ≤ j → j < 16 →
        decodeWord (encode (.msrCpsrReg c mask rm) ^^^ (1#32 <<< j)) = .error .notAnInScopeInstruction ∧
          decodeWord (encode (.msrSpsrReg c mask rm) ^^^ (1#32 <<< j)) = .error .notAnInScopeInstruction) ∧
      ∀ mask rot imm, 12 ≤ j → j < 16 →
        decodeWord (encode (.msrCpsrImm c mask rot imm) ^^^ (1#32 <<< j)) = .error .notAnInScopeInstruction ∧
          decodeWord (encode (.msrSpsrImm c mask rot imm) ^^^ (1#32 <<< j)) = .error .notAnInScopeInstruction

/-- 95_test_vectors.md 2.1: words written out from the encoding tables decode to what they stand for. -/
def Obligations.WordsOfTheSpecDecode : Prop :=
  decodeWord 0xE10F0000#32 = .ok (.mrs .al .cpsr 0) ∧ decodeWord 0x114F3000#32 = .ok (.mrs .ne .spsr 3) ∧
    decodeWord 0xE129F001#32 = .ok (.msrCpsrReg .al 0b1001 1) ∧
    decodeWord 0xE161F002#32 = .ok (.msrSpsrReg .al 0b0001 2) ∧
    decodeWord 0xE328F20F#32 = .ok (.msrCpsrImm .al 0b1000 2 0x0F) ∧
    decodeWord 0xE369F2FF#32 = .ok (.msrSpsrImm .al 0b1001 2 0xFF) ∧
    decodeWord 0xE3C120FF#32 = .ok (.bic .al 2 1 0 0xFF) ∧ decodeWord 0x13800001#32 = .ok (.orr .ne 0 0 0 1) ∧
    decodeWord 0xE12FFF10#32 = .error .notAnInScopeInstruction

/-- R55: instruction bit 22 selects the status register, and with it set the SPSR is the current mode's. -/
def Obligations.BitTwentyTwoSelectsThePsr : Prop :=
  (∀ (w : Word) (c : Cond) (psr : PsrSel) (rd : RegNum), decodeWord w = .ok (.mrs c psr rd) →
      psr = if w.getLsbD 22 then .spsr else .cpsr) ∧
    (∀ (w : Word) (c : Cond) (mask : FieldMask) (rm : RegNum),
      (decodeWord w = .ok (.msrCpsrReg c mask rm) → w.getLsbD 22 = false) ∧
        (decodeWord w = .ok (.msrSpsrReg c mask rm) → w.getLsbD 22 = true)) ∧
    (∀ (w : Word) (c : Cond) (mask : FieldMask) (rot : BitVec 4) (imm : Byte),
      (decodeWord w = .ok (.msrCpsrImm c mask rot imm) → w.getLsbD 22 = false) ∧
        (decodeWord w = .ok (.msrSpsrImm c mask rot imm) → w.getLsbD 22 = true)) ∧
    ∀ s : State, s.selectedPsr .cpsr = some s.cpsr ∧ s.selectedPsr .spsr = (spsrBank s.cpsr.m).map s.spsr

/-- R58 (general knowledge G11), R111: bit `j` of an immediate operand is bit `(j + 2 * rotate_imm) mod 32` of the
zero-extended 8-bit value. -/
def Obligations.ImmediateIsRotatedRight : Prop :=
  ∀ (rot : BitVec 4) (imm : Byte) (j : Nat), j < 32 →
    (imm32 rot imm).getLsbD j = imm.getLsbD ((j + 2 * rot.toNat) % 32)

/-- R67 (general knowledge G14): the assembler's rotation gives the constant and is the smallest that does; where it
finds none there is none. -/
def Obligations.AssembledImmediateIsExactAndSmallest : Prop :=
  ∀ v : Word,
    (∀ rot imm, assembleImm v = some (rot, imm) →
      imm32 rot imm = v ∧ ∀ rot' imm', imm32 rot' imm' = v → rot.toNat ≤ rot'.toNat) ∧
      (assembleImm v = none → ∀ rot imm, imm32 rot imm ≠ v)

/-! ### Conditions and flags -/

/-- R62 (general knowledge G13): the condition table. -/
def Obligations.ConditionTable : Prop :=
  ∀ p : Psr,
    condPassed .eq p = p.z ∧ condPassed .ne p = !p.z ∧ condPassed .cs p = p.c ∧ condPassed .cc p = !p.c ∧
      condPassed .mi p = p.n ∧ condPassed .pl p = !p.n ∧ condPassed .vs p = p.v ∧ condPassed .vc p = !p.v ∧
      (condPassed .hi p = true ↔ p.c = true ∧ p.z = false) ∧ (condPassed .ls p = true ↔ p.c = false ∨ p.z = true) ∧
      (condPassed .ge p = true ↔ p.n = p.v) ∧ (condPassed .lt p = true ↔ p.n ≠ p.v) ∧
      (condPassed .gt p = true ↔ p.z = false ∧ p.n = p.v) ∧ (condPassed .le p = true ↔ p.z = true ∨ p.n ≠ p.v) ∧
      condPassed .al p = true

/-- R62's meaning column (G13) with R21 to R24: on the flags of the subtraction `a - b`, the ordering conditions pass
exactly when `a` and `b` stand in the order they are named for. -/
def Obligations.ConditionsOrderTheOperandsOfASubtraction : Prop :=
  ∀ (a b : Word) (p : Psr),
    p.n = flagN (a - b) → p.z = flagZ (a - b) → p.c = flagCSub a b → p.v = flagVSub a b →
      (condPassed .eq p = true ↔ a = b) ∧ (condPassed .cs p = true ↔ b.toNat ≤ a.toNat) ∧
        (condPassed .cc p = true ↔ a.toNat < b.toNat) ∧ (condPassed .hi p = true ↔ b.toNat < a.toNat) ∧
        (condPassed .ls p = true ↔ a.toNat ≤ b.toNat) ∧ (condPassed .ge p = true ↔ b.toInt ≤ a.toInt) ∧
        (condPassed .lt p = true ↔ a.toInt < b.toInt) ∧ (condPassed .gt p = true ↔ b.toInt < a.toInt) ∧
        (condPassed .le p = true ↔ a.toInt ≤ b.toInt)

/-- R61 (its last clause is decision D11): an instruction whose condition fails does nothing but advance the pc, even
one that would fault. -/
def Obligations.FailedConditionOnlyAdvancesThePc : Prop :=
  ∀ (i : Instr) (s : State), WellFormed i → s.pc ≠ 0xFFFFFFFC#32 → condPassed i.cond s.cpsr = false →
    exec i s = .next { s with pc := s.pc + 4#32 }

/-- R21: N is bit 31 of the result, 1 exactly when the result is negative in two's complement. -/
def Obligations.NegativeFlagIsTheSign : Prop :=
  ∀ result : Word, flagN result = result.getLsbD 31 ∧ (flagN result = true ↔ result.toInt < 0)

/-- R22: Z is 1 exactly when the 32-bit result is zero. -/
def Obligations.ZeroFlagIsAZeroResult : Prop :=
  ∀ result : Word, (flagZ result = true ↔ result.toNat = 0)

/-- R23, R24, R112: carry is a lost unsigned carry, the negated borrow, or the last bit a shift loses (general knowledge
G5; the kinds of shift are PRESUMED, log 9), and stays where nothing is shifted (DEDUCED, log 9); overflow is a lost
signed result. -/
def Obligations.CarryAndOverflowSayWhatIsLost : Prop :=
  ∀ a b : Word,
    (flagCAdd a b = true ↔ (a + b).toNat ≠ a.toNat + b.toNat) ∧
      (flagCSub a b = true ↔ ((a - b).toNat : Int) = (a.toNat : Int) - b.toNat) ∧
      (flagVAdd a b = true ↔ (a + b).toInt ≠ a.toInt + b.toInt) ∧
      (flagVSub a b = true ↔ (a - b).toInt ≠ a.toInt - b.toInt) ∧
      ∀ (n : Nat) (c : Bool),
        (∀ k, flagCShift k a 0 c = c) ∧
          flagCShift .left a (n + 1) c = (decide (n < 32) && a.getLsbD (31 - n)) ∧
          flagCShift .logicalRight a (n + 1) c = a.getLsbD n ∧
          flagCShift .arithmeticRight a (n + 1) c = a.getLsbD (min n 31) ∧
          flagCShift .rotateRight a (n + 1) c = a.getLsbD (n % 32)

/-- R20: of the writers of the flags only MSR to the CPSR is in scope: no other instruction changes the CPSR at all. -/
def Obligations.OnlyMsrToTheCpsrWritesTheCpsr : Prop :=
  ∀ (i : Instr) (s t : State), exec i s = .next t → t.cpsr ≠ s.cpsr →
    ∃ c mask w, MsrToCpsr c mask w s i ∧ condPassed c s.cpsr = true ∧
      (t.cpsr.n ≠ s.cpsr.n ∨ t.cpsr.z ≠ s.cpsr.z ∨ t.cpsr.c ≠ s.cpsr.c ∨ t.cpsr.v ≠ s.cpsr.v →
        mask.getLsbD 3 = true)

/-! ### Modes and banks -/

/-- R12: the SPSR an instruction reaches is decided by the current mode; User and System have none. -/
def Obligations.SpsrBankOfEachMode : Prop :=
  ∀ s : State,
    (s.cpsr.m = 0b10000#5 ∨ s.cpsr.m = 0b11111#5 → spsrBank s.cpsr.m = none ∧ s.selectedPsr .spsr = none) ∧
      (s.cpsr.m = 0b10001#5 → spsrBank s.cpsr.m = some .fiq ∧ s.selectedPsr .spsr = some s.spsrFiq) ∧
      (s.cpsr.m = 0b10010#5 → spsrBank s.cpsr.m = some .irq ∧ s.selectedPsr .spsr = some s.spsrIrq) ∧
      (s.cpsr.m = 0b10011#5 → spsrBank s.cpsr.m = some .svc ∧ s.selectedPsr .spsr = some s.spsrSvc) ∧
      (s.cpsr.m = 0b10111#5 → spsrBank s.cpsr.m = some .abt ∧ s.selectedPsr .spsr = some s.spsrAbt) ∧
      (s.cpsr.m = 0b11011#5 → spsrBank s.cpsr.m = some .und ∧ s.selectedPsr .spsr = some s.spsrUnd)

/-- R26: the seven valid values of M[4:0], their modes, and the registers each mode can reach: general registers, the
SPSR, and in every mode the CPSR (the PC is the one field `pc`, whatever the mode). -/
def Obligations.ModeTable : Prop :=
  (∀ s : State, s.selectedPsr .cpsr = some s.cpsr) ∧
  (∀ m : ModeBits, validMode m = true ↔ m ∈ [0x10#5, 0x11#5, 0x12#5, 0x13#5, 0x17#5, 0x1B#5, 0x1F#5]) ∧
    [Mode.user, .fiq, .irq, .supervisor, .abort, .undefined, .system].map Mode.bits =
      [0b10000#5, 0b10001#5, 0b10010#5, 0b10011#5, 0b10111#5, 0b11011#5, 0b11111#5] ∧
    [0b10000#5, 0b10001#5, 0b10010#5, 0b10011#5, 0b10111#5, 0b11011#5, 0b11111#5].map spsrBank =
      [none, some .fiq, some .irq, some .svc, some .abt, some .und, none] ∧
    ∀ r : PhysReg,
      ((∃ n, phys 0b10000#5 n = some r) ↔ ∃ k, r = .common k) ∧
        ((∃ n, phys 0b11111#5 n = some r) ↔ ∃ k, r = .common k) ∧
        ((∃ n, phys 0b10001#5 n = some r) ↔ (∃ k, r = .common k ∧ k.val ≤ 7) ∨ ∃ k, r = .fiq k) ∧
        ((∃ n, phys 0b10010#5 n = some r) ↔ (∃ k, r = .common k ∧ k.val ≤ 12) ∨ ∃ k, r = .irq k) ∧
        ((∃ n, phys 0b10011#5 n = some r) ↔ (∃ k, r = .common k ∧ k.val ≤ 12) ∨ ∃ k, r = .svc k) ∧
        ((∃ n, phys 0b10111#5 n = some r) ↔ (∃ k, r = .common k ∧ k.val ≤ 12) ∨ ∃ k, r = .abt k) ∧
        ((∃ n, phys 0b11011#5 n = some r) ↔ (∃ k, r = .common k ∧ k.val ≤ 12) ∨ ∃ k, r = .und k)

/-- R32: the bank function: what `x[n]` reads for each number in each valid mode; 15 is no operand. -/
def Obligations.BankFunction : Prop :=
  ∀ (s : State) (k : Nat), validMode s.cpsr.m = true →
    (∀ h : k ≤ 7, s.readReg (BitVec.ofNat 4 k) = some s.common[k]) ∧
      (∀ h : 8 ≤ k ∧ k ≤ 12,
        s.readReg (BitVec.ofNat 4 k) = some (if s.cpsr.m = 0b10001#5 then s.fiq[k - 8] else s.common[k])) ∧
      (∀ h : k = 13 ∨ k = 14,
        (s.cpsr.m = 0b10000#5 ∨ s.cpsr.m = 0b11111#5 → s.readReg (BitVec.ofNat 4 k) = some s.common[k]) ∧
          (s.cpsr.m = 0b10001#5 → s.readReg (BitVec.ofNat 4 k) = some s.fiq[k - 8]) ∧
          (s.cpsr.m = 0b10010#5 → s.readReg (BitVec.ofNat 4 k) = some s.irq[k - 13]) ∧
          (s.cpsr.m = 0b10011#5 → s.readReg (BitVec.ofNat 4 k) = some s.svc[k - 13]) ∧
          (s.cpsr.m = 0b10111#5 → s.readReg (BitVec.ofNat 4 k) = some s.abt[k - 13]) ∧
          (s.cpsr.m = 0b11011#5 → s.readReg (BitVec.ofNat 4 k) = some s.und[k - 13])) ∧
      s.readReg 15#4 = none

/-- R97: which registers are per mode and which are shared, told by writing number `n` in one mode and reading it in
another: the other mode sees the write exactly where R97 has the register shared, and else what it held before. No
two modes have one SPSR, and the PC is one for all modes. -/
def Obligations.SharedAndPerModeRegisters : Prop :=
  (∀ (a b : ModeBits) (k : Bank), spsrBank a = some k → spsrBank b = some k → a = b) ∧
  ∀ (s u : State) (n : RegNum) (v : Word) (p : Psr), validMode s.cpsr.m = true → validMode p.m = true →
    s.writeReg n v = some u →
      (u.setCpsr p).pc = s.pc ∧ (u.setCpsr p).readReg n =
        if n.toNat ≤ 7 ∨ (n.toNat ≤ 12 ∧ s.cpsr.m ≠ 0b10001#5 ∧ p.m ≠ 0b10001#5) ∨ s.cpsr.m = p.m ∨
            (s.cpsr.m = 0b10000#5 ∧ p.m = 0b11111#5) ∨ (s.cpsr.m = 0b11111#5 ∧ p.m = 0b10000#5)
        then some v else (s.setCpsr p).readReg n

/-- R7, R30, R32: within one mode, a register reads as last written and a write leaves every other number alone. -/
def Obligations.RegisterReadsAsWritten : Prop :=
  ∀ (s : State) (n : RegNum) (v : Word), validMode s.cpsr.m = true → n ≠ 15#4 →
    ∃ u, s.writeReg n v = some u ∧ u.readReg n = some v ∧ ∀ k, k ≠ n → u.readReg k = s.readReg k

/-- R30 (its last part derived by the spec), R108: after a privileged MSR that writes the mode bits, the register
numbers name the new mode's registers, which kept their values while hidden, and so does the SPSR. -/
def Obligations.ModeSwitchSwapsTheBanks : Prop :=
  ∀ (c : Cond) (mask : FieldMask) (w : Word) (i : Instr) (s : State),
    MsrToCpsr c mask w s i → Ready c s → mask.getLsbD 0 = true → s.cpsr.m ≠ 0b10000#5 → CpsrOperandOk mask w s →
      ∃ t, exec i s = .next t ∧ t.cpsr.m = w.extractLsb' 0 5 ∧
        ∀ n, t.readReg n = (phys (w.extractLsb' 0 5) n).map s.readPhys ∧
          t.selectedPsr .spsr = (spsrBank (w.extractLsb' 0 5)).map s.spsr

/-- R27, R32 (model's stops, log 7): while CPSR.M is no mode, which the invariant excludes, an instruction that reaches
R13 or R14 stops as `currentModeNotValid`, but for MRS of the SPSR, which stops first as `noSpsrInMode`. -/
def Obligations.HighRegistersOfNoModeStop : Prop :=
  ∀ (c : Cond) (mask : FieldMask) (n k : RegNum) (rot : BitVec 4) (imm : Byte) (s : State),
    Ready c s → validMode s.cpsr.m = false → n = 13#4 ∨ n = 14#4 → k ≠ 15#4 →
      exec (.mrs c .cpsr n) s = .fault .currentModeNotValid ∧
        exec (.mrs c .spsr n) s = .fault .noSpsrInMode ∧
        exec (.msrCpsrReg c mask n) s = .fault .currentModeNotValid ∧
        exec (.msrSpsrReg c mask n) s = .fault .currentModeNotValid ∧
        exec (.bic c n k rot imm) s = .fault .currentModeNotValid ∧
        exec (.bic c k n rot imm) s = .fault .currentModeNotValid ∧
        exec (.orr c n k rot imm) s = .fault .currentModeNotValid ∧
        exec (.orr c k n rot imm) s = .fault .currentModeNotValid

/-! ### MRS -/

/-- R70: MRS copies the selected PSR to Rd, bit by bit; bits 27:8 are not constrained. -/
def Obligations.MrsCopiesTheSelectedPsr : Prop :=
  ∀ (c : Cond) (psr : PsrSel) (rd : RegNum) (s : State) (p : Psr),
    Ready c s → validMode s.cpsr.m = true → rd ≠ 15#4 → s.selectedPsr psr = some p →
      ∃ t v, exec (.mrs c psr rd) s = .next t ∧ t.readReg rd = some v ∧
        v.getLsbD 31 = p.n ∧ v.getLsbD 30 = p.z ∧ v.getLsbD 29 = p.c ∧ v.getLsbD 28 = p.v ∧
        v.getLsbD 7 = p.i ∧ v.getLsbD 6 = p.f ∧ v.getLsbD 5 = p.t ∧ v.extractLsb' 0 5 = p.m

/-- R70, R46: MRS changes nothing but Rd and the pc; the PSR it reads is unchanged. -/
def Obligations.MrsFrame : Prop :=
  ∀ (c : Cond) (psr : PsrSel) (rd : RegNum) (s t : State), exec (.mrs c psr rd) s = .next t →
    SameRegistersExcept rd s t ∧ t.cpsr = s.cpsr ∧ SameSpsrs s t ∧ SameText s t

/-- R72 (decision D14), R71 (decision D13): MRS stops with Rd = 15 first, then on an SPSR the mode does not have. -/
def Obligations.MrsStops : Prop :=
  ∀ (c : Cond) (psr : PsrSel) (rd : RegNum) (s : State), Ready c s →
    (rd = 15#4 → exec (.mrs c psr rd) s = .fault .mrsRdIsPc) ∧
      (rd ≠ 15#4 → s.cpsr.m = 0b10000#5 ∨ s.cpsr.m = 0b11111#5 →
        exec (.mrs c .spsr rd) s = .fault .noSpsrInMode)

/-! ### MSR to the CPSR -/

/-- R76: MSR to the CPSR, both operand forms: `f` takes N Z C V from operand bits 31:28, `c` takes I, F and M from
bits 7, 6 and 4:0 outside User mode, T stays, everything else of the operand is discarded. -/
def Obligations.MsrWritesTheSelectedCpsrFields : Prop :=
  ∀ (c : Cond) (mask : FieldMask) (w : Word) (i : Instr) (s : State),
    MsrToCpsr c mask w s i → Ready c s → CpsrOperandOk mask w s →
      ∃ t, exec i s = .next t ∧ FlagsTaken (mask.getLsbD 3) w s.cpsr t.cpsr ∧
        ControlTaken (mask.getLsbD 0 && decide (s.cpsr.m ≠ 0b10000#5)) w s.cpsr t.cpsr ∧ t.cpsr.t = s.cpsr.t

/-- R17: an MSR to the CPSR that selects the flags field writes N, Z, C and V in every mode, User included. (Which
operands are accepted, when it selects the control field too, is decisions D6 and D7 of the spec.) -/
def Obligations.FlagsAreWritableInEveryMode : Prop :=
  ∀ (c : Cond) (mask : FieldMask) (w : Word) (i : Instr) (s : State),
    MsrToCpsr c mask w s i → Ready c s → CpsrOperandOk mask w s → mask.getLsbD 3 = true →
      ∃ t, exec i s = .next t ∧ t.cpsr.n = w.getLsbD 31 ∧ t.cpsr.z = w.getLsbD 30 ∧ t.cpsr.c = w.getLsbD 29 ∧
        t.cpsr.v = w.getLsbD 28

/-- R18: an MSR to the CPSR that selects the control field writes I, F and M in a privileged mode, and in User mode
its attempt to modify them is ignored: it completes and they keep their values, whatever mode bits it asks for. That
an ignored write completes without a fault is derived by the spec (R18), that every mode but User is privileged is its
decision D19 (R93), and the conditions on the operand, bit 5 equal to CPSR.T in every mode and legal mode bits in a
privileged one, are its decisions D6 and D7 (R76). -/
def Obligations.PrivilegedBitsAreIgnoredInUserMode : Prop :=
  ∀ (c : Cond) (mask : FieldMask) (w : Word) (i : Instr) (s : State),
    MsrToCpsr c mask w s i → Ready c s → CpsrOperandOk mask w s → mask.getLsbD 0 = true →
      ∃ t, exec i s = .next t ∧
        (s.cpsr.m = 0b10000#5 → t.cpsr.i = s.cpsr.i ∧ t.cpsr.f = s.cpsr.f ∧ t.cpsr.m = s.cpsr.m) ∧
        (s.cpsr.m ≠ 0b10000#5 → t.cpsr.i = w.getLsbD 7 ∧ t.cpsr.f = w.getLsbD 6 ∧ t.cpsr.m = w.extractLsb' 0 5)

/-- R75: a byte of the PSR that the field mask does not select is unchanged, whatever the operand holds there, and
`x` and `s` select nothing that is state; for the CPSR and the SPSR, in both operand forms. -/
def Obligations.UnselectedFieldsAreUnchanged : Prop :=
  ∀ (c : Cond) (mask : FieldMask) (w : Word) (i : Instr) (s t : State), exec i s = .next t →
    (MsrToCpsr c mask w s i →
      (mask.getLsbD 3 = false → FlagsTaken false w s.cpsr t.cpsr) ∧
        (mask.getLsbD 0 = false → ControlTaken false w s.cpsr t.cpsr ∧ t.cpsr.t = s.cpsr.t) ∧
        (mask.getLsbD 3 = false → mask.getLsbD 0 = false → t.cpsr = s.cpsr)) ∧
      (MsrToSpsr c mask w s i → ∀ b,
        (mask.getLsbD 3 = false → FlagsTaken false w (s.spsr b) (t.spsr b)) ∧
          (mask.getLsbD 0 = false → ControlTaken false w (s.spsr b) (t.spsr b) ∧ (t.spsr b).t = (s.spsr b).t) ∧
          (mask.getLsbD 3 = false → mask.getLsbD 0 = false → t.spsr b = s.spsr b))

/-- R76: MSR to the CPSR changes no general register, no SPSR, no text, and not T. -/
def Obligations.MsrToCpsrFrame : Prop :=
  ∀ (c : Cond) (mask : FieldMask) (w : Word) (i : Instr) (s t : State), MsrToCpsr c mask w s i →
    exec i s = .next t → SameRegisters s t ∧ SameSpsrs s t ∧ SameText s t ∧ t.cpsr.t = s.cpsr.t

/-- R79 (D15), R76 (D6, D7), R80: where an MSR to the CPSR stops, in the order of the tests: Rm = 15, then a change of
T in every mode, then an illegal mode outside User mode. -/
def Obligations.MsrToCpsrStops : Prop :=
  (∀ (c : Cond) (mask : FieldMask) (s : State), Ready c s →
      exec (.msrCpsrReg c mask 15#4) s = .fault .msrRmIsPc) ∧
    ∀ (c : Cond) (mask : FieldMask) (w : Word) (i : Instr) (s : State), MsrToCpsr c mask w s i → Ready c s →
      mask.getLsbD 0 = true →
        (w.getLsbD 5 ≠ s.cpsr.t → exec i s = .fault .msrWritesT) ∧
          (w.getLsbD 5 = s.cpsr.t → s.cpsr.m ≠ 0b10000#5 → validMode (w.extractLsb' 0 5) = false →
            exec i s = .fault .invalidMode)

/-! ### MSR to the SPSR -/

/-- R77: MSR to the SPSR, both operand forms: `f` takes N Z C V, `c` takes I, F, T and M, of the current mode's SPSR;
any five bits are stored as M (decision D8). -/
def Obligations.MsrWritesTheSelectedSpsrFields : Prop :=
  ∀ (c : Cond) (mask : FieldMask) (w : Word) (i : Instr) (s : State) (b : Bank),
    MsrToSpsr c mask w s i → Ready c s → spsrBank s.cpsr.m = some b →
      ∃ t, exec i s = .next t ∧ FlagsTaken (mask.getLsbD 3) w (s.spsr b) (t.spsr b) ∧
        ControlTaken (mask.getLsbD 0) w (s.spsr b) (t.spsr b) ∧
        (t.spsr b).t = if mask.getLsbD 0 then w.getLsbD 5 else (s.spsr b).t

/-- R77: MSR to the SPSR changes no general register, not the CPSR, no other bank's SPSR and no text. -/
def Obligations.MsrToSpsrFrame : Prop :=
  ∀ (c : Cond) (mask : FieldMask) (w : Word) (i : Instr) (s t : State), MsrToSpsr c mask w s i →
    exec i s = .next t →
      SameRegisters s t ∧ t.cpsr = s.cpsr ∧ SameText s t ∧
        ∀ b, spsrBank s.cpsr.m ≠ some b → t.spsr b = s.spsr b

/-- R79 (D15), R78 (D13): where an MSR to the SPSR stops: Rm = 15 first, then, whatever the mask and the operand, a
mode without an SPSR. -/
def Obligations.MsrToSpsrStops : Prop :=
  (∀ (c : Cond) (mask : FieldMask) (s : State), Ready c s →
      exec (.msrSpsrReg c mask 15#4) s = .fault .msrRmIsPc) ∧
    ∀ (c : Cond) (mask : FieldMask) (w : Word) (i : Instr) (s : State), MsrToSpsr c mask w s i → Ready c s →
      s.cpsr.m = 0b10000#5 ∨ s.cpsr.m = 0b11111#5 → exec i s = .fault .noSpsrInMode

/-! ### MSR, both status registers -/

/-- R74 (derived by the spec): the same operand has the same effect in the register and the immediate form. -/
def Obligations.OperandFormsAgree : Prop :=
  ∀ (c : Cond) (mask : FieldMask) (rm : RegNum) (rot : BitVec 4) (imm : Byte) (s : State),
    s.readReg rm = some (imm32 rot imm) →
      exec (.msrCpsrReg c mask rm) s = exec (.msrCpsrImm c mask rot imm) s ∧
        exec (.msrSpsrReg c mask rm) s = exec (.msrSpsrImm c mask rot imm) s

/-- R15, R75 (decision D5): bits 27:8 of a register operand are discarded: two operands that agree in bits 31:28 and
7:0 have the same effect, whatever the rest. -/
def Obligations.ReservedOperandBitsAreDiscarded : Prop :=
  ∀ (c : Cond) (mask : FieldMask) (rm : RegNum) (r : PhysReg) (v w : Word) (s : State),
    phys s.cpsr.m rm = some r → v &&& 0xF00000FF#32 = w &&& 0xF00000FF#32 →
      (∀ t, exec (.msrCpsrReg c mask rm) (s.writePhys r v) = .next t →
        ∃ u, exec (.msrCpsrReg c mask rm) (s.writePhys r w) = .next u ∧ u.cpsr = t.cpsr) ∧
        ∀ t, exec (.msrSpsrReg c mask rm) (s.writePhys r v) = .next t →
          ∃ u, exec (.msrSpsrReg c mask rm) (s.writePhys r w) = .next u ∧ SameSpsrs t u

/-- R95, R106, with R70 and R77: an SPSR saved with MRS and later written back with MSR, both with a condition that
passes and in the same mode, is restored exactly, whatever MRS returned in the reserved bits and whatever the SPSR held
in between. -/
def Obligations.SavedSpsrIsRestored : Prop :=
  ∀ (c d : Cond) (rd : RegNum) (mask : FieldMask) (b : Bank) (s t u : State),
    spsrBank s.cpsr.m = some b → condPassed c s.cpsr = true → exec (.mrs c .spsr rd) s = .next t →
    Ready d u → u.cpsr.m = s.cpsr.m → u.readReg rd = t.readReg rd →
    mask.getLsbD 3 = true → mask.getLsbD 0 = true →
      ∃ x, exec (.msrSpsrReg d mask rd) u = .next x ∧ x.spsr b = s.spsr b

/-! ### BIC and ORR -/

/-- R82 (meaning from the source's comments, encoding G15): BIC clears in Rd exactly the bits of Rn that are 1 in the
immediate. -/
def Obligations.BicClearsTheImmediateBits : Prop :=
  ∀ (c : Cond) (rd rn : RegNum) (rot : BitVec 4) (imm : Byte) (s : State) (v : Word),
    Ready c s → validMode s.cpsr.m = true → rd ≠ 15#4 → rn ≠ 15#4 → s.readReg rn = some v →
      ∃ t x, exec (.bic c rd rn rot imm) s = .next t ∧ t.readReg rd = some x ∧
        ∀ j, x.getLsbD j = (v.getLsbD j && !(imm32 rot imm).getLsbD j)

/-- R83 (meaning from the source's comments, encoding G15): ORR sets in Rd the bits of Rn or of the immediate. -/
def Obligations.OrrSetsTheImmediateBits : Prop :=
  ∀ (c : Cond) (rd rn : RegNum) (rot : BitVec 4) (imm : Byte) (s : State) (v : Word),
    Ready c s → validMode s.cpsr.m = true → rd ≠ 15#4 → rn ≠ 15#4 → s.readReg rn = some v →
      ∃ t x, exec (.orr c rd rn rot imm) s = .next t ∧ t.readReg rd = some x ∧
        ∀ j, x.getLsbD j = (v.getLsbD j || (imm32 rot imm).getLsbD j)

/-- R82, R83: BIC and ORR change nothing but Rd and the pc: no flag, no status register, no other register. -/
def Obligations.BicAndOrrFrame : Prop :=
  ∀ (c : Cond) (rd rn : RegNum) (rot : BitVec 4) (imm : Byte) (i : Instr) (s t : State),
    i = .bic c rd rn rot imm ∨ i = .orr c rd rn rot imm → exec i s = .next t →
      SameRegistersExcept rd s t ∧ t.cpsr = s.cpsr ∧ SameSpsrs s t ∧ SameText s t

/-- The model's choice (log 10): `exec` on a BIC or ORR term with register 15, which no word decodes to, refuses it
whatever the state, as the decoder refuses the word (R81, decision D18). -/
def Obligations.PcOperandIsRefused : Prop :=
  ∀ (c : Cond) (rd rn : RegNum) (rot : BitVec 4) (imm : Byte) (s : State), rd = 15#4 ∨ rn = 15#4 →
    exec (.bic c rd rn rot imm) s = .refused .pcOperand ∧ exec (.orr c rd rn rot imm) s = .refused .pcOperand

/-! ### The PSR image, exceptions, interrupts -/

/-- R89, R86, R90 (general knowledge G16; that the SPSR receives the CPSR is the source's, R85): what taking an
exception leaves. R14 and the SPSR are not constrained for Reset (R89, R100). Two clauses are the model's choice (log 6):
that the flags are unchanged for Reset too, after which R36 calls them unspecified (DESIGN CHOICE), and that the link of
IRQ and FIQ is computed from the pc, read as the address of the next instruction (DEDUCED). -/
def Obligations.ExceptionEntry : Prop :=
  ∀ (s : State) (e : Exn),
    (s.takeException e).cpsr.m = e.mode.bits ∧ (s.takeException e).cpsr.t = false ∧
      (s.takeException e).cpsr.i = true ∧
      (s.takeException e).cpsr.f = (s.cpsr.f || decide (e = .reset ∨ e = .fiq)) ∧
      FlagsTaken false 0#32 s.cpsr (s.takeException e).cpsr ∧ (s.takeException e).pc = e.vector ∧
      (e ≠ .reset →
        spsrBank e.mode.bits = some e.bank ∧ (s.takeException e).spsr e.bank = s.cpsr ∧
          (s.takeException e).readReg 14#4 = some (s.pc + if e = .dataAbort then 8#32 else 4#32))

/-- R89 (general knowledge G16): taking an exception changes no register but the entered mode's R14, no SPSR but its
bank's, and no text. For Reset, after which R36 and R100 call the general registers and every SPSR unspecified, this is
the model's choice (log 6, DESIGN CHOICE). -/
def Obligations.ExceptionEntryFrame : Prop :=
  ∀ (s : State) (e : Exn),
    (∀ r, phys e.mode.bits 14#4 ≠ some r → (s.takeException e).readPhys r = s.readPhys r) ∧
      (∀ b, b ≠ e.bank → (s.takeException e).spsr b = s.spsr b) ∧ SameText s (s.takeException e)

/-- R94 d, R95, R89 (general knowledge G16): returning from an exception just taken restores the whole CPSR and goes
to the address given, aligned or not (the model's choice, log 6), and every register but the link is as before. -/
def Obligations.ExceptionReturnRestoresTheCpsr : Prop :=
  ∀ (s : State) (e : Exn) (target : Word), e ≠ .reset → validMode s.cpsr.m = true →
    ∃ u, (s.takeException e).exceptionReturn target = .next u ∧ u.cpsr = s.cpsr ∧ u.pc = target ∧
      ∀ r, phys e.mode.bits 14#4 ≠ some r → u.readPhys r = s.readPhys r

/-- R94 d, R95, R12, R27 (model's stops, log 6): a return completes where the mode has an SPSR that holds a mode, and
copies all of it, whatever the alignment of the target; elsewhere it stops by name. -/
def Obligations.ExceptionReturnCopiesTheSpsr : Prop :=
  ∀ (s : State) (target : Word),
    (spsrBank s.cpsr.m = none → s.exceptionReturn target = .fault .noSpsrInMode) ∧
      ∀ b, spsrBank s.cpsr.m = some b →
        (validMode (s.spsr b).m = true →
          ∃ u, s.exceptionReturn target = .next u ∧ u.cpsr = s.spsr b ∧ u.pc = target ∧ SameRegisters s u ∧
            SameSpsrs s u ∧ SameText s u) ∧
          (validMode (s.spsr b).m = false → s.exceptionReturn target = .fault .invalidMode)

/-- R25, R86, R88, R92 (priority is general knowledge G16): I disables IRQ, F disables FIQ, and FIQ goes first. -/
def Obligations.DisableBitsMaskInterrupts : Prop :=
  ∀ (p : Psr) (irqInput fiqInput : Bool),
    (interruptAdmitted p irqInput fiqInput = some .fiq ↔ fiqInput = true ∧ p.f = false) ∧
      (interruptAdmitted p irqInput fiqInput = some .irq ↔
        irqInput = true ∧ p.i = false ∧ ¬(fiqInput = true ∧ p.f = false)) ∧
      (p.i = true → p.f = true → interruptAdmitted p irqInput fiqInput = none)

/-- R25, R91 (decision D16): nothing but an MRS of the CPSR sees I and F: over any other values of them an instruction
ends in the same way, in the same state but for I and F. -/
def Obligations.DisableBitsAreSeenOnlyByMrs : Prop :=
  ∀ (i : Instr) (s : State) (bi bf : Bool), (∀ c rd, i ≠ .mrs c .cpsr rd) →
    (∀ t, exec i s = .next t → ∃ u, exec i (s.setCpsr { s.cpsr with i := bi, f := bf }) = .next u ∧
        u = t.setCpsr { t.cpsr with i := u.cpsr.i, f := u.cpsr.f }) ∧
      (∀ r, exec i s = .fault r → exec i (s.setCpsr { s.cpsr with i := bi, f := bf }) = .fault r) ∧
      ∀ r, exec i s = .refused r → exec i (s.setCpsr { s.cpsr with i := bi, f := bf }) = .refused r
end

