-- ==== Sys2Proof/Laws/State.lean ====
section
/-! SUPPORT. What each update of the state does to each field, so that no proof unfolds a record update. -/

namespace Sys2Proof.Machine

variable (s : State)

/-! `pc <- pc + 4` -/
@[simp] theorem State.advancePc_common : (s.advancePc).common = s.common := rfl
@[simp] theorem State.advancePc_fiq : (s.advancePc).fiq = s.fiq := rfl
@[simp] theorem State.advancePc_irq : (s.advancePc).irq = s.irq := rfl
@[simp] theorem State.advancePc_svc : (s.advancePc).svc = s.svc := rfl
@[simp] theorem State.advancePc_abt : (s.advancePc).abt = s.abt := rfl
@[simp] theorem State.advancePc_und : (s.advancePc).und = s.und := rfl
@[simp] theorem State.advancePc_cpsr : (s.advancePc).cpsr = s.cpsr := rfl
@[simp] theorem State.advancePc_spsrFiq : (s.advancePc).spsrFiq = s.spsrFiq := rfl
@[simp] theorem State.advancePc_spsrIrq : (s.advancePc).spsrIrq = s.spsrIrq := rfl
@[simp] theorem State.advancePc_spsrSvc : (s.advancePc).spsrSvc = s.spsrSvc := rfl
@[simp] theorem State.advancePc_spsrAbt : (s.advancePc).spsrAbt = s.spsrAbt := rfl
@[simp] theorem State.advancePc_spsrUnd : (s.advancePc).spsrUnd = s.spsrUnd := rfl
@[simp] theorem State.advancePc_mem : (s.advancePc).mem = s.mem := rfl
@[simp] theorem State.advancePc_order : (s.advancePc).order = s.order := rfl
@[simp] theorem State.advancePc_draws : (s.advancePc).draws = s.draws := rfl
@[simp] theorem State.advancePc_pc : (s.advancePc).pc = s.pc + 4#32 := rfl

/-! free values taken -/
@[simp] theorem State.drew_common (k : Nat) : (s.drew k).common = s.common := rfl
@[simp] theorem State.drew_fiq (k : Nat) : (s.drew k).fiq = s.fiq := rfl
@[simp] theorem State.drew_irq (k : Nat) : (s.drew k).irq = s.irq := rfl
@[simp] theorem State.drew_svc (k : Nat) : (s.drew k).svc = s.svc := rfl
@[simp] theorem State.drew_abt (k : Nat) : (s.drew k).abt = s.abt := rfl
@[simp] theorem State.drew_und (k : Nat) : (s.drew k).und = s.und := rfl
@[simp] theorem State.drew_pc (k : Nat) : (s.drew k).pc = s.pc := rfl
@[simp] theorem State.drew_cpsr (k : Nat) : (s.drew k).cpsr = s.cpsr := rfl
@[simp] theorem State.drew_spsrFiq (k : Nat) : (s.drew k).spsrFiq = s.spsrFiq := rfl
@[simp] theorem State.drew_spsrIrq (k : Nat) : (s.drew k).spsrIrq = s.spsrIrq := rfl
@[simp] theorem State.drew_spsrSvc (k : Nat) : (s.drew k).spsrSvc = s.spsrSvc := rfl
@[simp] theorem State.drew_spsrAbt (k : Nat) : (s.drew k).spsrAbt = s.spsrAbt := rfl
@[simp] theorem State.drew_spsrUnd (k : Nat) : (s.drew k).spsrUnd = s.spsrUnd := rfl
@[simp] theorem State.drew_mem (k : Nat) : (s.drew k).mem = s.mem := rfl
@[simp] theorem State.drew_order (k : Nat) : (s.drew k).order = s.order := rfl
@[simp] theorem State.drew_draws (k : Nat) : (s.drew k).draws = s.draws + k := rfl

/-! `CPSR <- p` -/
@[simp] theorem State.setCpsr_common (p : Psr) : (s.setCpsr p).common = s.common := rfl
@[simp] theorem State.setCpsr_fiq (p : Psr) : (s.setCpsr p).fiq = s.fiq := rfl
@[simp] theorem State.setCpsr_irq (p : Psr) : (s.setCpsr p).irq = s.irq := rfl
@[simp] theorem State.setCpsr_svc (p : Psr) : (s.setCpsr p).svc = s.svc := rfl
@[simp] theorem State.setCpsr_abt (p : Psr) : (s.setCpsr p).abt = s.abt := rfl
@[simp] theorem State.setCpsr_und (p : Psr) : (s.setCpsr p).und = s.und := rfl
@[simp] theorem State.setCpsr_pc (p : Psr) : (s.setCpsr p).pc = s.pc := rfl
@[simp] theorem State.setCpsr_spsrFiq (p : Psr) : (s.setCpsr p).spsrFiq = s.spsrFiq := rfl
@[simp] theorem State.setCpsr_spsrIrq (p : Psr) : (s.setCpsr p).spsrIrq = s.spsrIrq := rfl
@[simp] theorem State.setCpsr_spsrSvc (p : Psr) : (s.setCpsr p).spsrSvc = s.spsrSvc := rfl
@[simp] theorem State.setCpsr_spsrAbt (p : Psr) : (s.setCpsr p).spsrAbt = s.spsrAbt := rfl
@[simp] theorem State.setCpsr_spsrUnd (p : Psr) : (s.setCpsr p).spsrUnd = s.spsrUnd := rfl
@[simp] theorem State.setCpsr_mem (p : Psr) : (s.setCpsr p).mem = s.mem := rfl
@[simp] theorem State.setCpsr_order (p : Psr) : (s.setCpsr p).order = s.order := rfl
@[simp] theorem State.setCpsr_draws (p : Psr) : (s.setCpsr p).draws = s.draws := rfl
@[simp] theorem State.setCpsr_cpsr (p : Psr) : (s.setCpsr p).cpsr = p := rfl

/-! `SPSR[b] <- p` -/
@[simp] theorem State.setSpsr_common (b : Bank) (p : Psr) : (s.setSpsr b p).common = s.common := by cases b <;> rfl
@[simp] theorem State.setSpsr_fiq (b : Bank) (p : Psr) : (s.setSpsr b p).fiq = s.fiq := by cases b <;> rfl
@[simp] theorem State.setSpsr_irq (b : Bank) (p : Psr) : (s.setSpsr b p).irq = s.irq := by cases b <;> rfl
@[simp] theorem State.setSpsr_svc (b : Bank) (p : Psr) : (s.setSpsr b p).svc = s.svc := by cases b <;> rfl
@[simp] theorem State.setSpsr_abt (b : Bank) (p : Psr) : (s.setSpsr b p).abt = s.abt := by cases b <;> rfl
@[simp] theorem State.setSpsr_und (b : Bank) (p : Psr) : (s.setSpsr b p).und = s.und := by cases b <;> rfl
@[simp] theorem State.setSpsr_pc (b : Bank) (p : Psr) : (s.setSpsr b p).pc = s.pc := by cases b <;> rfl
@[simp] theorem State.setSpsr_cpsr (b : Bank) (p : Psr) : (s.setSpsr b p).cpsr = s.cpsr := by cases b <;> rfl
@[simp] theorem State.setSpsr_mem (b : Bank) (p : Psr) : (s.setSpsr b p).mem = s.mem := by cases b <;> rfl
@[simp] theorem State.setSpsr_order (b : Bank) (p : Psr) : (s.setSpsr b p).order = s.order := by cases b <;> rfl
@[simp] theorem State.setSpsr_draws (b : Bank) (p : Psr) : (s.setSpsr b p).draws = s.draws := by cases b <;> rfl

/-! a register write -/
@[simp] theorem State.writePhys_pc (r : PhysReg) (v : Word) : (s.writePhys r v).pc = s.pc := by cases r <;> rfl
@[simp] theorem State.writePhys_cpsr (r : PhysReg) (v : Word) : (s.writePhys r v).cpsr = s.cpsr := by cases r <;> rfl
@[simp] theorem State.writePhys_spsrFiq (r : PhysReg) (v : Word) : (s.writePhys r v).spsrFiq = s.spsrFiq := by cases r <;> rfl
@[simp] theorem State.writePhys_spsrIrq (r : PhysReg) (v : Word) : (s.writePhys r v).spsrIrq = s.spsrIrq := by cases r <;> rfl
@[simp] theorem State.writePhys_spsrSvc (r : PhysReg) (v : Word) : (s.writePhys r v).spsrSvc = s.spsrSvc := by cases r <;> rfl
@[simp] theorem State.writePhys_spsrAbt (r : PhysReg) (v : Word) : (s.writePhys r v).spsrAbt = s.spsrAbt := by cases r <;> rfl
@[simp] theorem State.writePhys_spsrUnd (r : PhysReg) (v : Word) : (s.writePhys r v).spsrUnd = s.spsrUnd := by cases r <;> rfl
@[simp] theorem State.writePhys_mem (r : PhysReg) (v : Word) : (s.writePhys r v).mem = s.mem := by cases r <;> rfl
@[simp] theorem State.writePhys_order (r : PhysReg) (v : Word) : (s.writePhys r v).order = s.order := by cases r <;> rfl
@[simp] theorem State.writePhys_draws (r : PhysReg) (v : Word) : (s.writePhys r v).draws = s.draws := by cases r <;> rfl

/-! loading program text -/
@[simp] theorem State.loadWord_common (a w : Word) : (s.loadWord a w).common = s.common := rfl
@[simp] theorem State.loadWord_fiq (a w : Word) : (s.loadWord a w).fiq = s.fiq := rfl
@[simp] theorem State.loadWord_irq (a w : Word) : (s.loadWord a w).irq = s.irq := rfl
@[simp] theorem State.loadWord_svc (a w : Word) : (s.loadWord a w).svc = s.svc := rfl
@[simp] theorem State.loadWord_abt (a w : Word) : (s.loadWord a w).abt = s.abt := rfl
@[simp] theorem State.loadWord_und (a w : Word) : (s.loadWord a w).und = s.und := rfl
@[simp] theorem State.loadWord_pc (a w : Word) : (s.loadWord a w).pc = s.pc := rfl
@[simp] theorem State.loadWord_cpsr (a w : Word) : (s.loadWord a w).cpsr = s.cpsr := rfl
@[simp] theorem State.loadWord_spsrFiq (a w : Word) : (s.loadWord a w).spsrFiq = s.spsrFiq := rfl
@[simp] theorem State.loadWord_spsrIrq (a w : Word) : (s.loadWord a w).spsrIrq = s.spsrIrq := rfl
@[simp] theorem State.loadWord_spsrSvc (a w : Word) : (s.loadWord a w).spsrSvc = s.spsrSvc := rfl
@[simp] theorem State.loadWord_spsrAbt (a w : Word) : (s.loadWord a w).spsrAbt = s.spsrAbt := rfl
@[simp] theorem State.loadWord_spsrUnd (a w : Word) : (s.loadWord a w).spsrUnd = s.spsrUnd := rfl
@[simp] theorem State.loadWord_order (a w : Word) : (s.loadWord a w).order = s.order := rfl
@[simp] theorem State.loadWord_draws (a w : Word) : (s.loadWord a w).draws = s.draws := rfl

/-! The same through the accessors -/

@[simp] theorem State.spsr_advancePc (b : Bank) : s.advancePc.spsr b = s.spsr b := by cases b <;> rfl
@[simp] theorem State.spsr_drew (k : Nat) (b : Bank) : (s.drew k).spsr b = s.spsr b := by cases b <;> rfl
@[simp] theorem State.spsr_setCpsr (p : Psr) (b : Bank) : (s.setCpsr p).spsr b = s.spsr b := by cases b <;> rfl
@[simp] theorem State.spsr_writePhys (r : PhysReg) (v : Word) (b : Bank) :
    (s.writePhys r v).spsr b = s.spsr b := by cases b <;> simp [State.spsr]
@[simp] theorem State.spsr_setSpsr_same (b : Bank) (p : Psr) : (s.setSpsr b p).spsr b = p := by cases b <;> rfl
theorem State.spsr_setSpsr_other {b k : Bank} (p : Psr) (h : k ≠ b) : (s.setSpsr b p).spsr k = s.spsr k := by
  cases b <;> cases k <;> first | rfl | exact absurd rfl h

@[simp] theorem State.readPhys_advancePc (r : PhysReg) : s.advancePc.readPhys r = s.readPhys r := by cases r <;> rfl
@[simp] theorem State.readPhys_drew (k : Nat) (r : PhysReg) : (s.drew k).readPhys r = s.readPhys r := by
  cases r <;> rfl
@[simp] theorem State.readPhys_setCpsr (p : Psr) (r : PhysReg) : (s.setCpsr p).readPhys r = s.readPhys r := by
  cases r <;> rfl
@[simp] theorem State.readPhys_setSpsr (b : Bank) (p : Psr) (r : PhysReg) :
    (s.setSpsr b p).readPhys r = s.readPhys r := by cases r <;> simp [State.readPhys]
@[simp] theorem State.readPhys_writePhys_same (r : PhysReg) (v : Word) : (s.writePhys r v).readPhys r = v := by
  cases r <;> simp [State.readPhys, State.writePhys]
theorem State.readPhys_writePhys_other {r k : PhysReg} (v : Word) (h : k ≠ r) :
    (s.writePhys r v).readPhys k = s.readPhys k := by
  cases r <;> cases k <;>
    first
    | rfl
    | (rename_i a b
       have hab : (a : Nat) ≠ b := fun e => h (congrArg _ (Fin.ext e.symm))
       simp [State.readPhys, State.writePhys, Vector.getElem_set_ne, hab])

@[simp] theorem State.byteAt_advancePc (a : Word) : s.advancePc.byteAt a = s.byteAt a := rfl
@[simp] theorem State.byteAt_drew (k : Nat) (a : Word) : (s.drew k).byteAt a = s.byteAt a := rfl
@[simp] theorem State.byteAt_setCpsr (p : Psr) (a : Word) : (s.setCpsr p).byteAt a = s.byteAt a := rfl
@[simp] theorem State.byteAt_setSpsr (b : Bank) (p : Psr) (a : Word) : (s.setSpsr b p).byteAt a = s.byteAt a := by
  simp [State.byteAt]
@[simp] theorem State.byteAt_writePhys (r : PhysReg) (v a : Word) : (s.writePhys r v).byteAt a = s.byteAt a := by
  simp [State.byteAt]

end Sys2Proof.Machine
end

