-- ==== Sys2Proof/Laws/Memory.lean ====
section
/-! SUPPORT. The laws of memory: a read after a write, and the canonical form that every operation keeps. -/

namespace Sys2Proof.Machine

theorem readAt_writeAt_same (a : Nat) (v : Byte) (m : Mem) : readAt a (writeAt a v m) = some v := by
  induction m with
  | nil => simp [writeAt, readAt]
  | cons e rest ih =>
    obtain ⟨k, b⟩ := e
    simp only [writeAt]
    split
    · simp [readAt]
    · split
      · simp [readAt]
      · next hne => simp [readAt, hne, ih]

theorem readAt_writeAt_other {a c : Nat} (h : c ≠ a) (v : Byte) (m : Mem) :
    readAt c (writeAt a v m) = readAt c m := by
  induction m with
  | nil => simp [writeAt, readAt, Ne.symm h]
  | cons e rest ih =>
    obtain ⟨k, b⟩ := e
    simp only [writeAt]
    split
    · simp [readAt, Ne.symm h]
    · split
      · next hk => subst hk; simp [readAt, Ne.symm h]
      · simp [readAt, ih]

theorem risesFrom_writeAt {low a : Nat} (v : Byte) (m : Mem) (hl : low ≤ a) (ha : a < 2 ^ 32)
    (h : risesFrom low m = true) : risesFrom low (writeAt a v m) = true := by
  induction m generalizing low with
  | nil => simp [writeAt, risesFrom, hl]; omega
  | cons e rest ih =>
    obtain ⟨k, b⟩ := e
    simp only [risesFrom, Bool.and_eq_true, decide_eq_true_eq] at h
    obtain ⟨⟨hk, hb⟩, hr⟩ := h
    simp only [writeAt]
    split
    · simp only [risesFrom, Bool.and_eq_true, decide_eq_true_eq]
      exact ⟨⟨hl, ha⟩, ⟨by omega, hb⟩, hr⟩
    · split
      · next hka => subst hka; simp only [risesFrom, Bool.and_eq_true, decide_eq_true_eq]; exact ⟨⟨hl, ha⟩, hr⟩
      · simp only [risesFrom, Bool.and_eq_true, decide_eq_true_eq]
        exact ⟨⟨hk, hb⟩, ih (by omega) hr⟩

theorem memRead_memWrite_same (m : Mem) (a : Word) (v : Byte) : memRead (memWrite m a v) a = some v :=
  readAt_writeAt_same _ _ _

theorem memRead_memWrite_other {a c : Word} (h : c ≠ a) (m : Mem) (v : Byte) :
    memRead (memWrite m a v) c = memRead m c :=
  readAt_writeAt_other (fun e => h (BitVec.eq_of_toNat_eq e)) _ _

/-- Writing a byte keeps the canonical form. -/
theorem memWrite_wf (m : Mem) (a : Word) (v : Byte) (h : m.wf = true) : (memWrite m a v).wf = true :=
  risesFrom_writeAt v m (Nat.zero_le _) a.isLt h

/-- Writing bytes one after another keeps the canonical form. -/
theorem placeBytes_wf (m : Mem) (a : Word) (bs : List Byte) (h : m.wf = true) : (placeBytes m a bs).wf = true := by
  induction bs generalizing m a with
  | nil => exact h
  | cons b bs ih => exact ih _ _ (memWrite_wf m a b h)

/-- Loading a word keeps the canonical form. -/
theorem loadWord_wf (s : State) (a w : Word) (h : s.mem.wf = true) : (s.loadWord a w).mem.wf = true :=
  placeBytes_wf s.mem a _ h

/-- The bytes of a word, in either byte order, make that word again. -/
theorem wordOfBytes_bytesOfWord (o : ByteOrder) (w : Word) :
    ∃ b0 b1 b2 b3, bytesOfWord o w = [b0, b1, b2, b3] ∧ wordOfBytes o b0 b1 b2 b3 = w := by
  cases o <;> refine ⟨_, _, _, _, rfl, ?_⟩ <;> apply BitVec.eq_of_getLsbD_eq <;> intro j hj <;>
    simp only [wordOfBytes, BitVec.getLsbD_append, BitVec.getLsbD_extractLsb'] <;> interval_cases j <;> simp

/-- Two different places among the four bytes of a word have different addresses. -/
theorem add_ofNat_ne (a : Word) {j k : Nat} (hj : j < 4) (hk : k < 4) (h : j ≠ k) :
    a + BitVec.ofNat 32 j ≠ a + BitVec.ofNat 32 k := by
  intro e
  have := congrArg BitVec.toNat e
  simp at this
  omega

/-- What loading a word leaves at its address: the word. -/
theorem State.text_loadWord (s : State) {a : Word} (w : Word) (ha : a.toNat % 4 = 0) :
    (s.loadWord a w).text a = some w := by
  obtain ⟨b0, b1, b2, b3, hb, hw⟩ := wordOfBytes_bytesOfWord s.order w
  have ne := fun j k hj hk h => add_ofNat_ne a (j := j) (k := k) hj hk h
  have n01 := ne 0 1 (by decide) (by decide) (by decide)
  have n02 := ne 0 2 (by decide) (by decide) (by decide)
  have n03 := ne 0 3 (by decide) (by decide) (by decide)
  have n12 := ne 1 2 (by decide) (by decide) (by decide)
  have n13 := ne 1 3 (by decide) (by decide) (by decide)
  have n23 := ne 2 3 (by decide) (by decide) (by decide)
  simp only [BitVec.add_zero] at n01 n02 n03 n12 n13 n23
  have hm : (s.loadWord a w).mem =
      memWrite (memWrite (memWrite (memWrite s.mem a b0) (a + 1#32) b1) (a + 2#32) b2) (a + 3#32) b3 := by
    simp only [State.loadWord, hb, placeBytes, BitVec.add_assoc]; rfl
  have h0 : (s.loadWord a w).byteAt a = some b0 := by
    rw [State.byteAt, hm, memRead_memWrite_other n03, memRead_memWrite_other n02, memRead_memWrite_other n01,
      memRead_memWrite_same]
  have h1 : (s.loadWord a w).byteAt (a + 1#32) = some b1 := by
    rw [State.byteAt, hm, memRead_memWrite_other n13, memRead_memWrite_other n12, memRead_memWrite_same]
  have h2 : (s.loadWord a w).byteAt (a + 2#32) = some b2 := by
    rw [State.byteAt, hm, memRead_memWrite_other n23, memRead_memWrite_same]
  have h3 : (s.loadWord a w).byteAt (a + 3#32) = some b3 := by rw [State.byteAt, hm, memRead_memWrite_same]
  simp [State.text, State.textBytes, ha, h0, h1, h2, h3, hw]

/-- Memory is in its canonical form at reset. -/
theorem reset_mem_wf : State.reset.mem.wf = true := rfl

end Sys2Proof.Machine
end

