-- ==== Sys2Proof/Laws/Psr.lean ====
section
/-! SUPPORT. The bits of a PSR image, and the fields that the PSR updates leave. -/

namespace Sys2Proof.Machine

variable (p : Psr) (w : Word)

@[simp] theorem psrWord_bit31 (d : BitVec 20) : (psrWord p d)[31] = p.n := by
  rw [← BitVec.getLsbD_eq_getElem]; simp only [psrWord, BitVec.getLsbD_append]; simp
@[simp] theorem psrWord_bit30 (d : BitVec 20) : (psrWord p d)[30] = p.z := by
  rw [← BitVec.getLsbD_eq_getElem]; simp only [psrWord, BitVec.getLsbD_append]; simp
@[simp] theorem psrWord_bit29 (d : BitVec 20) : (psrWord p d)[29] = p.c := by
  rw [← BitVec.getLsbD_eq_getElem]; simp only [psrWord, BitVec.getLsbD_append]; simp
@[simp] theorem psrWord_bit28 (d : BitVec 20) : (psrWord p d)[28] = p.v := by
  rw [← BitVec.getLsbD_eq_getElem]; simp only [psrWord, BitVec.getLsbD_append]; simp
@[simp] theorem psrWord_bit7 (d : BitVec 20) : (psrWord p d)[7] = p.i := by
  rw [← BitVec.getLsbD_eq_getElem]; simp only [psrWord, BitVec.getLsbD_append]; simp
@[simp] theorem psrWord_bit6 (d : BitVec 20) : (psrWord p d)[6] = p.f := by
  rw [← BitVec.getLsbD_eq_getElem]; simp only [psrWord, BitVec.getLsbD_append]; simp
@[simp] theorem psrWord_bit5 (d : BitVec 20) : (psrWord p d)[5] = p.t := by
  rw [← BitVec.getLsbD_eq_getElem]; simp only [psrWord, BitVec.getLsbD_append]; simp
@[simp] theorem psrWord_modeField (d : BitVec 20) : modeField (psrWord p d) = p.m := by
  apply BitVec.eq_of_getLsbD_eq
  intro j hj
  simp only [modeField, psrWord, BitVec.getLsbD_extractLsb', BitVec.getLsbD_append]
  simp [hj]

@[simp] theorem Psr.withFlags_i : (p.withFlags w).i = p.i := rfl
@[simp] theorem Psr.withFlags_f : (p.withFlags w).f = p.f := rfl
@[simp] theorem Psr.withFlags_t : (p.withFlags w).t = p.t := rfl
@[simp] theorem Psr.withFlags_m : (p.withFlags w).m = p.m := rfl
@[simp] theorem Psr.withFlags_n : (p.withFlags w).n = w.getLsbD 31 := rfl
@[simp] theorem Psr.withFlags_z : (p.withFlags w).z = w.getLsbD 30 := rfl
@[simp] theorem Psr.withFlags_c : (p.withFlags w).c = w.getLsbD 29 := rfl
@[simp] theorem Psr.withFlags_v : (p.withFlags w).v = w.getLsbD 28 := rfl
@[simp] theorem Psr.withControl_n : (p.withControl w).n = p.n := rfl
@[simp] theorem Psr.withControl_z : (p.withControl w).z = p.z := rfl
@[simp] theorem Psr.withControl_c : (p.withControl w).c = p.c := rfl
@[simp] theorem Psr.withControl_v : (p.withControl w).v = p.v := rfl
@[simp] theorem Psr.withControl_t : (p.withControl w).t = p.t := rfl
@[simp] theorem Psr.withControl_i : (p.withControl w).i = w.getLsbD 7 := rfl
@[simp] theorem Psr.withControl_f : (p.withControl w).f = w.getLsbD 6 := rfl
@[simp] theorem Psr.withControl_m : (p.withControl w).m = modeField w := rfl
@[simp] theorem Psr.withControlAndT_n : (p.withControlAndT w).n = p.n := rfl
@[simp] theorem Psr.withControlAndT_z : (p.withControlAndT w).z = p.z := rfl
@[simp] theorem Psr.withControlAndT_c : (p.withControlAndT w).c = p.c := rfl
@[simp] theorem Psr.withControlAndT_v : (p.withControlAndT w).v = p.v := rfl
@[simp] theorem Psr.withControlAndT_i : (p.withControlAndT w).i = w.getLsbD 7 := rfl
@[simp] theorem Psr.withControlAndT_f : (p.withControlAndT w).f = w.getLsbD 6 := rfl
@[simp] theorem Psr.withControlAndT_t : (p.withControlAndT w).t = w.getLsbD 5 := rfl
@[simp] theorem Psr.withControlAndT_m : (p.withControlAndT w).m = modeField w := rfl

/-- An MSR to the CPSR that the T test let through leaves T alone. -/
@[simp] theorem Psr.afterMsrCpsr_t (mask : FieldMask) : (p.afterMsrCpsr mask w).t = p.t := by
  unfold Psr.afterMsrCpsr; dsimp only; split <;> split <;> rfl

/-- The mode after an MSR to the CPSR: the operand's where a privileged mode selected `c`, else the old one. -/
theorem Psr.afterMsrCpsr_m (mask : FieldMask) :
    (p.afterMsrCpsr mask w).m = if mask.getLsbD 0 && privileged p.m then modeField w else p.m := by
  unfold Psr.afterMsrCpsr; dsimp only; split <;> split <;> rfl

/-- A PSR's image holds exactly its stored fields. -/
theorem psrOfWord_psrWord (d : BitVec 20) : psrOfWord (psrWord p d) = p := by
  simp [psrOfWord, Psr.withFlags, Psr.withControlAndT]

end Sys2Proof.Machine
end

