-- ==== Sys2Proof/Laws/Registers.lean ====
section
/-! SUPPORT. Modes, banks and the register numbers they resolve. -/

namespace Sys2Proof.Machine

@[simp] theorem Mode.ofBits_bits (md : Mode) : Mode.ofBits md.bits = some md := by cases md <;> rfl

theorem Mode.bits_of_ofBits {b : ModeBits} {md : Mode} (h : Mode.ofBits b = some md) : md.bits = b := by
  revert b md; decide

@[simp] theorem validMode_bits (md : Mode) : validMode md.bits = true := by cases md <;> rfl

/-- A valid mode is the bits of some mode. -/
theorem validMode_cases {b : ModeBits} (h : validMode b = true) : ∃ md : Mode, b = md.bits := by
  obtain ⟨md, hm⟩ := Option.isSome_iff_exists.mp h
  exact ⟨md, (Mode.bits_of_ofBits hm).symm⟩

/-- Only a valid mode has a bank. -/
theorem validMode_of_spsrBank {b : ModeBits} {k : Bank} (h : spsrBank b = some k) : validMode b = true := by
  unfold spsrBank at h
  split at h
  · next he => simp [validMode, he]
  · cases h

/-- In a valid mode every register number but 15 names a register. -/
theorem phys_of_validMode {b : ModeBits} (h : validMode b = true) {n : RegNum} (hn : n ≠ 15#4) :
    ∃ r, phys b n = some r := by
  apply Option.isSome_iff_exists.mp
  revert b n; decide

/-- Register number 15 names no register. -/
@[simp] theorem phys_pc (b : ModeBits) : phys b 15#4 = none := by revert b; decide

/-- In one mode two numbers never name the same register. -/
theorem phys_injective {b : ModeBits} {n k : RegNum} {r : PhysReg} (hn : phys b n = some r)
    (hk : phys b k = some r) : n = k := by
  have aux : ∀ (b : ModeBits) (n k : RegNum), phys b n = phys b k → (phys b n).isSome = true → n = k := by
    decide +revert
  exact aux b n k (hn.trans hk.symm) (by simp [hn])

theorem State.readReg_of_phys {s : State} {n : RegNum} {r : PhysReg} (h : phys s.cpsr.m n = some r) :
    s.readReg n = some (s.readPhys r) := by simp [State.readReg, h]

theorem State.writeReg_of_phys {s : State} {n : RegNum} {r : PhysReg} (h : phys s.cpsr.m n = some r) (v : Word) :
    s.writeReg n v = some (s.writePhys r v) := by simp [State.writeReg, h]

theorem State.writeReg_some {s u : State} {n : RegNum} {v : Word} (h : s.writeReg n v = some u) :
    ∃ r, phys s.cpsr.m n = some r ∧ u = s.writePhys r v := by
  unfold State.writeReg at h
  split at h
  · next r hr => exact ⟨r, hr, (Option.some.inj h).symm⟩
  · cases h

end Sys2Proof.Machine
end

