-- ==== Sys2Proof/Laws/Exec.lean ====
section
/-! SUPPORT. What each shared operation and each rule can do, said once: if it answers a next state, then one of
these cases holds. -/

namespace Sys2Proof.Machine

/-- An instruction that answers has the pc advanced after either nothing (its condition failed) or its rule. -/
theorem runRule_next {s t : State} {c : Cond} {rule : State → Host.Outcome State Fault Refusal}
    (h : s.runRule c rule = .next t) :
    s.pc ≠ lastWordAddress ∧
      ((condPassed c s.cpsr = false ∧ t = s.advancePc) ∨
        (condPassed c s.cpsr = true ∧ ∃ u, rule s = .next u ∧ t = u.advancePc)) := by
  unfold State.runRule at h
  split at h
  · cases h
  · next hpc =>
    refine ⟨hpc, ?_⟩
    unfold State.guarded at h
    split at h
    · next hc =>
      split at h
      · next u hu => exact .inr ⟨hc, u, hu, (Host.Outcome.next.inj h).symm⟩
      · cases h
      · cases h
    · next hc => exact .inl ⟨by simpa using hc, (Host.Outcome.next.inj h).symm⟩

/-- The converse for a passing condition: a rule that answers makes the instruction answer. -/
theorem runRule_of_ready {s u : State} {c : Cond} {rule : State → Host.Outcome State Fault Refusal}
    (hr : Ready c s) (hu : rule s = .next u) : s.runRule c rule = .next u.advancePc := by
  simp [State.runRule, State.guarded, hr.1, hr.2, hu]

/-- MRS: the selected PSR's image goes to the register Rd names. -/
theorem mrsRule_next {s u : State} {psr : PsrSel} {rd : RegNum} (h : mrsRule psr rd s = .next u) :
    rd ≠ 15#4 ∧ ∃ p r, s.selectedPsr psr = some p ∧ phys s.cpsr.m rd = some r ∧
      u = (s.writePhys r (psrWord p (Config.reservedBits s.draws))).drew 1 := by
  unfold mrsRule at h
  split at h
  · cases h
  · next hrd =>
    split at h
    · cases h
    · next p hp =>
      split at h
      · cases h
      · next w hw =>
        obtain ⟨r, hr, rfl⟩ := State.writeReg_some hw
        exact ⟨hrd, p, r, hp, hr, (Host.Outcome.next.inj h).symm⟩

/-- MSR to the CPSR: T is not changed and a privileged `c` writes a mode. -/
theorem msrCpsrRule_next {s u : State} {mask : FieldMask} {w : Word} (h : msrCpsrRule mask w s = .next u) :
    (mask.getLsbD 0 = true → w.getLsbD 5 = s.cpsr.t) ∧
      (mask.getLsbD 0 = true → privileged s.cpsr.m = true → validMode (modeField w) = true) ∧
      u = s.setCpsr (s.cpsr.afterMsrCpsr mask w) := by
  unfold msrCpsrRule at h
  split at h
  · cases h
  · next ht =>
    split at h
    · cases h
    · next hm =>
      refine ⟨fun hc => ?_, fun hc hp => ?_, (Host.Outcome.next.inj h).symm⟩
      · rw [hc] at ht; simpa using ht
      · rw [hc, hp] at hm; simpa using hm

/-- MSR to the SPSR: only the SPSR of the current mode's bank is written. -/
theorem msrSpsrRule_next {s u : State} {mask : FieldMask} {w : Word} (h : msrSpsrRule mask w s = .next u) :
    ∃ b, spsrBank s.cpsr.m = some b ∧ u = s.setSpsr b ((s.spsr b).afterMsrSpsr mask w) := by
  unfold msrSpsrRule at h
  split at h
  · cases h
  · next b hb => exact ⟨b, hb, (Host.Outcome.next.inj h).symm⟩

/-- The register form of MSR runs its rule on what Rm holds. -/
theorem withRm_next {s u : State} {rm : RegNum} {rule : Word → State → Host.Outcome State Fault Refusal}
    (h : withRm rm rule s = .next u) : rm ≠ 15#4 ∧ ∃ v, s.readReg rm = some v ∧ rule v s = .next u := by
  unfold withRm at h
  split at h
  · cases h
  · next hrm =>
    split at h
    · cases h
    · next v hv => exact ⟨hrm, v, hv, h⟩

/-- BIC and ORR write the register Rd names and nothing else. -/
theorem dpRule_next {s u : State} {f : Word → Word} {rd rn : RegNum} (h : dpRule f rd rn s = .next u) :
    ∃ v r, s.readReg rn = some v ∧ phys s.cpsr.m rd = some r ∧ u = s.writePhys r (f v) := by
  unfold dpRule at h
  split at h
  · cases h
  · next v hv =>
    split at h
    · cases h
    · next w hw =>
      obtain ⟨r, hr, rfl⟩ := State.writeReg_some hw
      exact ⟨v, r, hv, hr, (Host.Outcome.next.inj h).symm⟩

theorem refusePc_next {t : State} {rd rn : RegNum} {answer : Host.Outcome State Fault Refusal}
    (h : refusePc rd rn answer = .next t) : rn ≠ 15#4 ∧ rd ≠ 15#4 ∧ answer = .next t := by
  unfold refusePc at h
  split at h
  · cases h
  · next hn => exact ⟨fun e => hn (.inl e), fun e => hn (.inr e), h⟩

/-- What one instruction can do before its pc is advanced: nothing, one register write, one CPSR write that leaves
T alone and writes no illegal mode, or one write of the current mode's SPSR. -/
inductive Effect (s : State) : State → Prop where
  | none : Effect s s
  | register (n : RegNum) (r : PhysReg) (v : Word) (k : Nat) :
      phys s.cpsr.m n = some r → Effect s ((s.writePhys r v).drew k)
  | cpsr (mask : FieldMask) (w : Word) :
      (mask.getLsbD 0 = true → w.getLsbD 5 = s.cpsr.t) →
      (mask.getLsbD 0 = true → privileged s.cpsr.m = true → validMode (modeField w) = true) →
      Effect s (s.setCpsr (s.cpsr.afterMsrCpsr mask w))
  | spsr (b : Bank) (p : Psr) : spsrBank s.cpsr.m = some b → Effect s (s.setSpsr b p)

theorem State.drew_zero (s : State) : s.drew 0 = s := rfl

/-- One instruction, whichever it is: its effect, then the pc advanced. -/
theorem exec_next {i : Instr} {s t : State} (h : exec i s = .next t) :
    s.pc ≠ lastWordAddress ∧ ∃ u, Effect s u ∧ t = u.advancePc := by
  have run : ∀ {c : Cond} {rule : State → Host.Outcome State Fault Refusal},
      s.runRule c rule = .next t → (∀ u, rule s = .next u → Effect s u) →
      s.pc ≠ lastWordAddress ∧ ∃ u, Effect s u ∧ t = u.advancePc := by
    intro c rule hr he
    obtain ⟨hpc, ⟨_, ht⟩ | ⟨_, u, hu, ht⟩⟩ := runRule_next hr
    · exact ⟨hpc, s, .none, ht⟩
    · exact ⟨hpc, u, he u hu, ht⟩
  have cpsr : ∀ {mask : FieldMask} {w : Word} {u : State}, msrCpsrRule mask w s = .next u → Effect s u := by
    intro mask w u hu
    obtain ⟨h1, h2, rfl⟩ := msrCpsrRule_next hu
    exact .cpsr mask w h1 h2
  have spsr : ∀ {mask : FieldMask} {w : Word} {u : State}, msrSpsrRule mask w s = .next u → Effect s u := by
    intro mask w u hu
    obtain ⟨b, hb, rfl⟩ := msrSpsrRule_next hu
    exact .spsr b _ hb
  have dp : ∀ {f : Word → Word} {rd rn : RegNum} {u : State}, dpRule f rd rn s = .next u → Effect s u := by
    intro f rd rn u hu
    obtain ⟨v, r, _, hr, rfl⟩ := dpRule_next hu
    exact State.drew_zero (s.writePhys r (f v)) ▸ .register rd r (f v) 0 hr
  cases i with
  | mrs c psr rd =>
    refine run h fun u hu => ?_
    obtain ⟨_, p, r, _, hr, rfl⟩ := mrsRule_next hu
    exact .register rd r _ 1 hr
  | msrCpsrReg c mask rm => exact run h fun u hu => by obtain ⟨_, v, _, hv⟩ := withRm_next hu; exact cpsr hv
  | msrSpsrReg c mask rm => exact run h fun u hu => by obtain ⟨_, v, _, hv⟩ := withRm_next hu; exact spsr hv
  | msrCpsrImm c mask rot imm => exact run h fun u hu => cpsr hu
  | msrSpsrImm c mask rot imm => exact run h fun u hu => spsr hu
  | bic c rd rn rot imm => exact run (refusePc_next h).2.2 fun u hu => dp hu
  | orr c rd rn rot imm => exact run (refusePc_next h).2.2 fun u hu => dp hu

/-- A step that answers ran an instruction it fetched in ARM state. -/
theorem step_next {s t : State} (h : step s = .next t) :
    s.cpsr.t = false ∧ ∃ i, fetch s = .next i ∧ exec i s = .next t := by
  unfold step at h
  split at h
  · next i hi =>
    refine ⟨?_, i, hi, h⟩
    unfold fetch at hi
    split at hi
    · cases hi
    · next ht => simpa using ht
  · cases h
  · cases h

end Sys2Proof.Machine
end

