-- ==== Sys2Proof/Laws/Flags.lean ====
section
/-! SUPPORT. What a shift by many places does, bit by bit. -/

namespace Sys2Proof.Machine

theorem getLsbD_shiftBy_left (v : Word) (n : Nat) {j : Nat} (hj : j < 32) :
    (shiftBy .left v n).getLsbD j = (decide (n ≤ j) && v.getLsbD (j - n)) := by
  induction n generalizing j with
  | zero => simp [shiftBy]
  | succ n ih =>
    simp only [shiftBy, shiftOnce, BitVec.getLsbD_shiftLeft, hj, decide_true, Bool.true_and]
    by_cases h : j = 0
    · simp [h]
    · rw [ih (by omega), Nat.sub_sub, Nat.add_comm 1 n]
      simp only [show ¬ j < 1 by omega, decide_false, Bool.not_false, Bool.true_and,
        show n ≤ j - 1 ↔ n + 1 ≤ j by omega]

theorem getLsbD_shiftBy_logicalRight (v : Word) (n j : Nat) :
    (shiftBy .logicalRight v n).getLsbD j = v.getLsbD (j + n) := by
  induction n generalizing j with
  | zero => rfl
  | succ n ih => simp only [shiftBy, shiftOnce, BitVec.getLsbD_ushiftRight, ih, Nat.add_comm, Nat.add_left_comm]

theorem getLsbD_shiftBy_arithmeticRight (v : Word) (n : Nat) {j : Nat} (hj : j < 32) :
    (shiftBy .arithmeticRight v n).getLsbD j = v.getLsbD (min (j + n) 31) := by
  induction n generalizing j with
  | zero => simp [shiftBy, show min j 31 = j by omega]
  | succ n ih =>
    simp only [shiftBy, shiftOnce, BitVec.getLsbD_sshiftRight, BitVec.msb_eq_getLsbD_last]
    split
    · rw [ih (by omega)]; simp [show ¬ 32 ≤ j by omega, show 1 + j + n = j + (n + 1) by omega]
    · rw [ih (by omega), show min (j + (n + 1)) 31 = min (32 - 1 + n) 31 by omega]; simp [show ¬ 32 ≤ j by omega]

theorem getLsbD_shiftBy_rotateRight (v : Word) (n : Nat) {j : Nat} (hj : j < 32) :
    (shiftBy .rotateRight v n).getLsbD j = v.getLsbD ((j + n) % 32) := by
  induction n generalizing j with
  | zero => simp [shiftBy, Nat.mod_eq_of_lt hj]
  | succ n ih =>
    simp only [shiftBy, shiftOnce, ror32, BitVec.getLsbD_or, BitVec.getLsbD_ushiftRight, BitVec.getLsbD_shiftLeft, hj]
    by_cases h : j = 31
    · subst h
      have h0 := ih (j := 0) (by omega)
      simp only [Nat.zero_add] at h0
      rw [show (31 + (n + 1)) % 32 = n % 32 by omega, ← h0]
      simp
    · simp [ih (j := 1 + j) (by omega), show j < 31 by omega, show (1 + j + n) = (j + (n + 1)) by omega]

end Sys2Proof.Machine
end

