-- ==== Sys2Proof/Laws/PerInstr.lean ====
section
/-! SUPPORT. What holds of every instruction as syntax: its word lies in its row of the decoder table and carries its
condition. -/

namespace Sys2Proof.Laws

open Sys2Proof

theorem Cond.ofBits_bits (c : Cond) : Cond.ofBits c.bits = some c := by cases c <;> rfl

/-- A word whose top four bits are a condition's code carries that condition. -/
theorem condField_of_bits {w : Word} {c : Cond} (h : ∀ j < 4, w.getLsbD (28 + j) = c.bits.getLsbD j) :
    Cond.ofBits (condField w) = some c := by
  have hb : condField w = c.bits := by
    apply BitVec.eq_of_getLsbD_eq
    intro j hj
    simp only [condField, BitVec.getLsbD_extractLsb', hj, decide_true, Bool.true_and, h j hj]
  rw [hb, Cond.ofBits_bits]

/-- A word is in a row when it has the row's value in every bit the mask selects. -/
theorem hits_of_bits {r : Row} {w : Word}
    (h : ∀ j < 32, (w.getLsbD j && r.mask.getLsbD j) = r.pattern.getLsbD j) : r.hits w = true := by
  unfold Row.hits
  rw [beq_iff_eq]
  exact BitVec.eq_of_getLsbD_eq fun j hj => by rw [BitVec.getLsbD_and]; exact h j hj

/-- The word of `i` is in the row of `i` and its bits 31:28 are the condition of `i`. -/
def EncodeRow.Statement (i : Instr) : Prop :=
  (rowOf i).hits (encode i) = true ∧ Cond.ofBits (condField (encode i)) = some i.cond

theorem EncodeRow.mrs (c : Cond) (psr : PsrSel) (rd : RegNum) : EncodeRow.Statement (.mrs c psr rd) := by
  refine ⟨hits_of_bits fun j hj => ?_, condField_of_bits fun j hj => ?_⟩ <;>
    simp only [encode, rowOf, rowMrs, Instr.cond, BitVec.getLsbD_append] <;> interval_cases j <;> simp

theorem EncodeRow.msrCpsrReg (c : Cond) (mask : FieldMask) (rm : RegNum) : EncodeRow.Statement (.msrCpsrReg c mask rm) := by
  refine ⟨hits_of_bits fun j hj => ?_, condField_of_bits fun j hj => ?_⟩ <;>
    simp only [encode, rowOf, rowMsrCpsrReg, Instr.cond, BitVec.getLsbD_append] <;> interval_cases j <;> simp

theorem EncodeRow.msrSpsrReg (c : Cond) (mask : FieldMask) (rm : RegNum) : EncodeRow.Statement (.msrSpsrReg c mask rm) := by
  refine ⟨hits_of_bits fun j hj => ?_, condField_of_bits fun j hj => ?_⟩ <;>
    simp only [encode, rowOf, rowMsrSpsrReg, Instr.cond, BitVec.getLsbD_append] <;> interval_cases j <;> simp

theorem EncodeRow.msrCpsrImm (c : Cond) (mask : FieldMask) (rot : BitVec 4) (imm : Byte) : EncodeRow.Statement (.msrCpsrImm c mask rot imm) := by
  refine ⟨hits_of_bits fun j hj => ?_, condField_of_bits fun j hj => ?_⟩ <;>
    simp only [encode, rowOf, rowMsrCpsrImm, Instr.cond, BitVec.getLsbD_append] <;> interval_cases j <;> simp

theorem EncodeRow.msrSpsrImm (c : Cond) (mask : FieldMask) (rot : BitVec 4) (imm : Byte) : EncodeRow.Statement (.msrSpsrImm c mask rot imm) := by
  refine ⟨hits_of_bits fun j hj => ?_, condField_of_bits fun j hj => ?_⟩ <;>
    simp only [encode, rowOf, rowMsrSpsrImm, Instr.cond, BitVec.getLsbD_append] <;> interval_cases j <;> simp

theorem EncodeRow.bic (c : Cond) (rd rn : RegNum) (rot : BitVec 4) (imm : Byte) : EncodeRow.Statement (.bic c rd rn rot imm) := by
  refine ⟨hits_of_bits fun j hj => ?_, condField_of_bits fun j hj => ?_⟩ <;>
    simp only [encode, rowOf, rowBic, Instr.cond, BitVec.getLsbD_append] <;> interval_cases j <;> simp

theorem EncodeRow.orr (c : Cond) (rd rn : RegNum) (rot : BitVec 4) (imm : Byte) : EncodeRow.Statement (.orr c rd rn rot imm) := by
  refine ⟨hits_of_bits fun j hj => ?_, condField_of_bits fun j hj => ?_⟩ <;>
    simp only [encode, rowOf, rowOrr, Instr.cond, BitVec.getLsbD_append] <;> interval_cases j <;> simp

end Sys2Proof.Laws
end

