-- ==== Sys2Proof/Tests/Slice0.lean ====
section
/-! SUPPORT. Small tests of the model: well-formedness, the spec's tables and encodings, single steps from
95_test_vectors.md, and a witness for the hypotheses of every statement that has some. Expected values are the
spec's own, except in the witnesses, which only show that the hypotheses can be met. -/

namespace Sys2Proof.Tests

open Sys2Proof Sys2Proof.Machine

/-! ### Helpers -/

/-- A state with the CPSR given as a word in PSR layout, at pc 0x8000, as the vectors of 95 are written. -/
def at8000 (cpsr : Word) : State := { State.reset with pc := 0x8000#32, cpsr := psrOfWord cpsr }

def ran (o : Host.Outcome State Fault Refusal) (p : State → Bool) : Bool :=
  match o with
  | .next t => p t
  | .fault _ => false
  | .refused _ => false

def faulted (o : Host.Outcome State Fault Refusal) (r : Fault) : Bool :=
  match o with
  | .next _ => false
  | .fault q => q == r
  | .refused _ => false

def wasRefused (o : Host.Outcome State Fault Refusal) (r : Refusal) : Bool :=
  match o with
  | .next _ => false
  | .fault _ => false
  | .refused q => q == r

/-- One step of the state on an instruction word placed at its pc. -/
def stepOn (s : State) (w : Nat) : Host.Outcome State Fault Refusal := step (s.withFetchWord 32 w)

def decodesTo (table : List (Word × Instr)) : Bool :=
  table.all fun e => (decodeWord e.1).toOption == some e.2 && encode e.2 == e.1

/-! ### Well-formedness -/

theorem test_illformed_bic_rd : wellFormed (.bic .al 15 0 0 0) = false := by decide
theorem test_illformed_bic_rn : wellFormed (.bic .al 0 15 0 0) = false := by decide
theorem test_illformed_orr_rd : wellFormed (.orr .al 15 0 0 0) = false := by decide
theorem test_illformed_orr_rn : wellFormed (.orr .al 0 15 0 0) = false := by decide
theorem test_wellformed_mrs_pc : wellFormed (.mrs .al .cpsr 15) = true := by decide

/-! ### Encodings (95_test_vectors.md 2.1) -/

theorem test_decode_mrs : decodesTo
    [(0xE10F0000, .mrs .al .cpsr 0), (0xE14F0000, .mrs .al .spsr 0), (0xE10FC000, .mrs .al .cpsr 12),
     (0xE10FD000, .mrs .al .cpsr 13), (0xE14F8000, .mrs .al .spsr 8), (0x114F3000, .mrs .ne .spsr 3),
     (0xE10FF000, .mrs .al .cpsr 15)] = true := by decide

theorem test_decode_msr_cpsr_reg : decodesTo
    [(0xE121F000, .msrCpsrReg .al 0b0001 0), (0xE122F000, .msrCpsrReg .al 0b0010 0),
     (0xE124F000, .msrCpsrReg .al 0b0100 0), (0xE128F000, .msrCpsrReg .al 0b1000 0),
     (0xE129F001, .msrCpsrReg .al 0b1001 1), (0xE12FF000, .msrCpsrReg .al 0b1111 0),
     (0xE121F008, .msrCpsrReg .al 0b0001 8), (0x0121F001, .msrCpsrReg .eq 0b0001 1)] = true := by decide

theorem test_decode_msr_spsr_reg : decodesTo
    [(0xE161F002, .msrSpsrReg .al 0b0001 2), (0xE16FF000, .msrSpsrReg .al 0b1111 0),
     (0xE160F000, .msrSpsrReg .al 0b0000 0)] = true := by decide

theorem test_decode_msr_cpsr_imm : decodesTo
    [(0xE328F20F, .msrCpsrImm .al 0b1000 2 0x0F), (0xE328F101, .msrCpsrImm .al 0b1000 1 0x01),
     (0xE328F202, .msrCpsrImm .al 0b1000 2 0x02), (0xE321F0D3, .msrCpsrImm .al 0b0001 0 0xD3),
     (0x2321F01F, .msrCpsrImm .cs 0b0001 0 0x1F), (0x4328F201, .msrCpsrImm .mi 0b1000 2 0x01)] = true := by decide

theorem test_decode_msr_spsr_imm : decodesTo
    [(0xE361F030, .msrSpsrImm .al 0b0001 0 0x30), (0xE368F20F, .msrSpsrImm .al 0b1000 2 0x0F),
     (0xE369F2FF, .msrSpsrImm .al 0b1001 2 0xFF)] = true := by decide

theorem test_decode_bic : decodesTo
    [(0xE3C0001F, .bic .al 0 0 0 0x1F), (0xE3C0020F, .bic .al 0 0 2 0x0F),
     (0xE3C120FF, .bic .al 2 1 0 0xFF)] = true := by decide

theorem test_decode_orr : decodesTo
    [(0xE3800013, .orr .al 0 0 0 0x13), (0xE38010C0, .orr .al 1 0 0 0xC0),
     (0x13800001, .orr .ne 0 0 0 0x01)] = true := by decide

/-- M8a, M8b, S17a, S17b, S18, S21, B4: wrong fill bits, BX, BICS. -/
theorem test_decode_refuses : [0xE10F0001#32, 0xE10E0000#32, 0xE121F010#32, 0xE12FFF10#32, 0xE1210000#32,
    0xE3280102#32, 0xE3D0001F#32].all
      (fun w => match decodeWord w with | .error .notAnInScopeInstruction => true | _ => false) = true := by decide

/-- M10: condition 1111. -/
theorem test_decode_condNV : decodeWord 0xF10F0000#32 = .error .condNV := by decide

/-- B5: the PC as an operand. -/
theorem test_decode_pcOperand : decodeWord 0xE380F001#32 = .error .pcOperand := by decide

theorem test_decodeTableWord : decodeTableWord 32 0xE129F001 = some (.msrCpsrReg .al 0b1001 1) := by decide

/-! ### Tables of the spec -/

/-- 95_test_vectors.md 2.6. -/
theorem test_immediates : [((0, 0xFF), 0x000000FF), ((1, 0xFF), 0xC000003F), ((2, 0x0F), 0xF0000000),
    ((4, 0xF0), 0xF0000000), ((8, 0x01), 0x00010000), ((12, 0x81), 0x00008100), ((14, 0x3F), 0x000003F0),
    ((15, 0xFF), 0x000003FC), ((2, 0xFF), 0xF000000F)].all
      (fun e : (BitVec 4 × Byte) × Word => imm32 e.1.1 e.1.2 == e.2) = true := by decide

/-- 95_test_vectors.md 2.7: the flag nibbles N Z C V that pass each condition. -/
theorem test_conditions : [(Cond.eq, [4, 5, 6, 7, 12, 13, 14, 15]), (.ne, [0, 1, 2, 3, 8, 9, 10, 11]),
    (.cs, [2, 3, 6, 7, 10, 11, 14, 15]), (.cc, [0, 1, 4, 5, 8, 9, 12, 13]), (.mi, [8, 9, 10, 11, 12, 13, 14, 15]),
    (.pl, [0, 1, 2, 3, 4, 5, 6, 7]), (.vs, [1, 3, 5, 7, 9, 11, 13, 15]), (.vc, [0, 2, 4, 6, 8, 10, 12, 14]),
    (.hi, [2, 3, 10, 11]), (.ls, [0, 1, 4, 5, 6, 7, 8, 9, 12, 13, 14, 15]), (.ge, [0, 2, 4, 6, 9, 11, 13, 15]),
    (.lt, [1, 3, 5, 7, 8, 10, 12, 14]), (.gt, [0, 2, 9, 11]), (.le, [1, 3, 4, 5, 6, 7, 8, 10, 12, 13, 14, 15]),
    (.al, [0, 1, 2, 3, 4, 5, 6, 7, 8, 9, 10, 11, 12, 13, 14, 15])].all
      (fun e : Cond × List Nat => (List.range 16).all fun k =>
        condPassed e.1 (psrOfWord (BitVec.ofNat 32 (k * 2 ^ 28))) == e.2.contains k) = true := by decide

/-- 95_test_vectors.md 2.8: a banked number and a common one in each bank. -/
theorem test_banks : phys 0x11 8 = some (.fiq 0) ∧ phys 0x11 14 = some (.fiq 6) ∧ phys 0x12 13 = some (.irq 0) ∧
    phys 0x13 14 = some (.svc 1) ∧ phys 0x17 13 = some (.abt 0) ∧ phys 0x1B 14 = some (.und 1) ∧
    phys 0x12 12 = some (.common 12) ∧ phys 0x1F 14 = some (.common 14) ∧ phys 0x11 7 = some (.common 7) := by decide

/-- M1 with the draw 0xABCDE, and the layout of its word. -/
theorem test_psrWord : psrWord (psrOfWord 0x600000D3) 0xABCDE = 0x6ABCDED3#32 := by decide

/-- R67: `CPSR_fc` is mask 1001, and `#0xF0000000` takes its smallest rotation, 2. -/
theorem test_assembler : maskOf [.f, .c] = 0b1001#4 ∧ assembleImm 0xF0000000 = some (2#4, 0x0F#8) ∧
    assembleImm 0x101 = none := by decide

/-! ### Single steps (95_test_vectors.md 2.2 to 2.5) -/

/-- M1: what MRS leaves in R0, with the free value standing in bits 27:8. -/
theorem test_mrs_cpsr : ran (stepOn (at8000 0x600000D3) 0xE10F0000)
    (fun t => t.pc == 0x8004 && t.cpsr == psrOfWord 0x600000D3 && t.draws == 1) = true := by decide
/-- M5: in FIQ mode MRS R8, SPSR writes R8_fiq, not the common R8. -/
theorem test_mrs_banked : (match stepOn { at8000 0x000000D1 with spsrFiq := psrOfWord 0x90000013 } 0xE14F8000 with
    | .next t => (t.fiq[0], t.common[8])
    | .fault _ => (0, 1)
    | .refused _ => (0, 1)) = (psrWord (psrOfWord 0x90000013) (Config.reservedBits 0), 0#32) := rfl

/-- S7a: in User mode `fc` writes the flags and the control byte is ignored. -/
theorem test_msr_cpsr_reg_user : ran (stepOn ((at8000 0x00000010).writePhys (.common 1) 0x900000DF) 0xE129F001)
    (fun t => t.cpsr == psrOfWord 0x90000010 && t.pc == 0x8004) = true := by decide
/-- S16b: bit 5 is tested before the illegal mode. -/
theorem test_msr_cpsr_reg_order : faulted
    (stepOn ((at8000 0x400000D3).writePhys (.common 1) 0x00000034) 0x0121F001) .msrWritesT = true := by decide

/-- S13: M = 00000 is stored in an SPSR. -/
theorem test_msr_spsr_reg : ran (stepOn { at8000 0x000000D3 with spsrSvc := psrOfWord 0xA00000DF } 0xE161F002)
    (fun t => t.spsrSvc == psrOfWord 0xA0000000 && t.cpsr == psrOfWord 0x000000D3) = true := by decide
/-- S14c: the fault does not depend on the mask. -/
theorem test_msr_spsr_reg_system : faulted (stepOn (at8000 0x0000001F) 0xE160F000) .noSpsrInMode = true := by decide

/-- S2: System to Supervisor. -/
theorem test_msr_cpsr_imm : ran (stepOn (at8000 0x0000001F) 0xE321F0D3)
    (fun t => t.cpsr == psrOfWord 0x000000D3) = true := by decide
/-- S6a: 10100 is not a mode. -/
theorem test_msr_cpsr_imm_mode : faulted (stepOn (at8000 0x000000D3) 0xE321F014) .invalidMode = true := by decide

/-- S12: T = 1 goes into the SPSR, the flags are kept. -/
theorem test_msr_spsr_imm : ran (stepOn { at8000 0xF00000D3 with spsrSvc := psrOfWord 0xA00000DF } 0xE361F030)
    (fun t => t.spsrSvc == psrOfWord 0xA0000030 && t.cpsr == psrOfWord 0xF00000D3) = true := by decide
/-- S14a: User mode has no SPSR. -/
theorem test_msr_spsr_imm_user : faulted (stepOn (at8000 0x00000010) 0xE368F20F) .noSpsrInMode = true := by decide

/-- B1: BIC R0,R0,#0x1F. -/
theorem test_bic : ran (stepOn ((at8000 0x00000010).writePhys (.common 0) 0x600000DF) 0xE3C0001F)
    (fun t => t.common[0] == 0x600000C0 && t.cpsr == psrOfWord 0x00000010) = true := by decide

/-- B2: ORR R1,R0,#0xC0. -/
theorem test_orr : ran (stepOn ((at8000 0x00000010).writePhys (.common 0) 0x12345678) 0xE38010C0)
    (fun t => t.common[1] == 0x123456F8 && t.common[0] == 0x12345678) = true := by decide
/-- B3a: a failed condition. -/
theorem test_orr_skipped : ran (stepOn (at8000 0x40000010) 0x13800001)
    (fun t => t.common[0] == 0 && t.pc == 0x8004) = true := by decide

/-- M11, M12, R43: the stops of the step itself. -/
theorem test_step_stops : wasRefused (stepOn (at8000 0x000000F3) 0xE10F0000) .thumbState = true ∧
    wasRefused (stepOn { at8000 0x000000D3 with pc := 0xFFFFFFFC } 0xE10F0000) .pcWrap = true ∧
    faulted (step State.reset) .stuck = true := by decide

/-- R43: in big byte order the byte at the pc is bits 31:24. -/
theorem test_big_endian : ran (step { at8000 0x00000010 with
      order := .big, mem := [(0x8000, 0xE3), (0x8001, 0x28), (0x8002, 0xF2), (0x8003, 0x0F)] })
    (fun t => t.cpsr == psrOfWord 0xF0000010) = true := by decide

/-- R89: an IRQ taken in User mode, and the return from it. -/
theorem test_irq_entry : ((at8000 0x60000010).takeException .irq).cpsr = psrOfWord 0x60000092 ∧
    ((at8000 0x60000010).takeException .irq).spsrIrq = psrOfWord 0x60000010 ∧
    ((at8000 0x60000010).takeException .irq).irq[1] = 0x8004#32 ∧
    ((at8000 0x60000010).takeException .irq).pc = 0x18#32 := by decide

/-! ### Witnesses: the hypotheses of each statement can be met -/

/-- Supervisor mode, IRQ and FIQ disabled. -/
def svc : State := at8000 0x000000D3
/-- User mode, Z set. -/
def usr : State := at8000 0x40000010
/-- Supervisor mode with MSR CPSR_c,#0xDF at the pc. -/
def svcMsr : State := svc.withFetchWord 32 0xE321F0DF
/-- The state one step after `svcMsr`: System mode. -/
def afterSvcMsr : State := { svcMsr with pc := 0x8004, cpsr := psrOfWord 0x000000DF }
/-- User mode with MSR CPSR_fc,#0xF000000F at the pc. -/
def usrMsr : State := usr.withFetchWord 32 0xE329F20F

theorem svcMsr_invariant : Invariant svcMsr := ⟨by decide, by decide, by decide, by decide⟩
theorem svcMsr_step : step svcMsr = .next afterSvcMsr := rfl

theorem test_witness_StepKeepsInvariant : ∃ s t, Invariant s ∧ step s = .next t :=
  ⟨svcMsr, afterSvcMsr, svcMsr_invariant, svcMsr_step⟩
theorem test_witness_FinishedRunKeepsInvariant : ∃ stop s t, Invariant s ∧ RunsTo stop s t ∧ s.pc ≠ stop :=
  ⟨0x8004, svcMsr, afterSvcMsr, svcMsr_invariant, .more (by decide) svcMsr_step (.here rfl), by decide⟩
theorem test_witness_UserModeIsNeverLeft : ∃ s t, s.cpsr.m = 0b10000#5 ∧ step s = .next t :=
  ⟨usrMsr, _, by decide, rfl⟩
theorem test_witness_StepTouchesOnlyItsOwnBanks :
    (∃ s t, step s = .next t) ∧ (∀ n, phys svcMsr.cpsr.m n ≠ some (.fiq 0)) ∧ spsrBank svcMsr.cpsr.m ≠ some .irq :=
  ⟨⟨svcMsr, _, svcMsr_step⟩, by decide, by decide⟩
theorem test_witness_InstructionsAccessNoMemory :
    (∃ i s t, exec i s = .next t) ∧ (∃ i s r, exec i s = .fault r) ∧ ∃ i s r, exec i s = .refused r :=
  ⟨⟨.mrs .al .cpsr 0, svc, _, rfl⟩, ⟨.mrs .al .cpsr 15, svc, _, rfl⟩, ⟨.bic .al 15 0 0 0, svc, _, rfl⟩⟩
theorem test_witness_StepRunsTheDecodedInstruction : svcMsr.cpsr.t = false ∧ svcMsr.pc.toNat % 4 = 0 ∧
    svcMsr.byteAt svcMsr.pc = some 0xDF ∧ svcMsr.byteAt (svcMsr.pc + 1#32) = some 0xF0 ∧
    svcMsr.byteAt (svcMsr.pc + 2#32) = some 0x21 ∧ svcMsr.byteAt (svcMsr.pc + 3#32) = some 0xE3 ∧
    decodeBytes svcMsr.order [0xDF, 0xF0, 0x21, 0xE3] = .ok (.msrCpsrImm .al 1 0 0xDF, []) := by decide
theorem test_witness_StepStops_state : (at8000 0x000000F3).cpsr.t = true ∧ svc.cpsr.t = false ∧
    svc.text svc.pc = none := by decide
theorem test_witness_StepStops_words :
    (svc.withFetchWord 32 0xF10F0000).text svc.pc = some 0xF10F0000#32 ∧
    (svc.withFetchWord 32 0xE12FFF10).text svc.pc = some 0xE12FFF10#32 ∧
    decodeWord 0xE12FFF10 = .error .notAnInScopeInstruction ∧
    (svc.withFetchWord 32 0xE380F001).text svc.pc = some 0xE380F001#32 ∧
    svcMsr.text svc.pc = some 0xE321F0DF#32 ∧
    decodeWord 0xE321F0DF = .ok (.msrCpsrImm .al 1 0 0xDF) := by decide
theorem test_witness_PlacedInstructionRuns : WellFormed (.bic .al 14 14 15 0xFF) ∧ svc.cpsr.t = false ∧
    svc.pc.toNat % 4 = 0 ∧ Invariant svc := ⟨by decide, by decide, by decide, by decide, by decide, by decide, by decide⟩
/-- Loading a word at reset makes a launch state (R103), and reset itself, where no text is loaded, is none. -/
theorem test_launch : Launch (State.reset.withFetchWord 32 0xE10F0000) ∧ ¬ Launch State.reset :=
  ⟨⟨⟨by decide, by decide, by decide, by decide⟩, by decide⟩, fun h => absurd h.textAtPc (by decide)⟩
theorem test_witness_CompletedStep : ∃ s t, Invariant s ∧ step s = .next t ∧ s.pc = 0xFFFFFFF8#32 :=
  ⟨{ svc with pc := 0xFFFFFFF8 }.withFetchWord 32 0xE321F0DF, _,
    ⟨by decide, by decide, by decide, by decide⟩, rfl, rfl⟩
theorem test_witness_LastWordIsRefused : WellFormed (.orr .ne 14 14 0 1) ∧
    ({ svc with pc := 0xFFFFFFFC } : State).pc = 0xFFFFFFFC#32 := by decide
theorem test_witness_DecodedWordIsItsEncoding : decodeWord 0xE3CEEFFF = .ok (.bic .al 14 14 15 0xFF) := by decide
theorem test_witness_DecoderRowsAreDisjoint : rowMrs ∈ rows ∧ rowMrs.hits 0xE10F0000 = true := by decide
theorem test_witness_DecoderRefusesByName :
    (0xF3C0F001#32).extractLsb' 28 4 = 0b1111#4 ∧
    ((0xE12FFF10#32).extractLsb' 28 4 ≠ 0b1111#4 ∧ ∀ r ∈ rows, r.hits 0xE12FFF10 = false) ∧
    ((0xE3CF0001#32).extractLsb' 28 4 ≠ 0b1111#4 ∧ rowBic.hits 0xE3CF0001 = true ∧
      (0xE3CF0001#32).extractLsb' 16 4 = 15#4) ∧
    (0xE380F001#32).extractLsb' 28 4 ≠ 0b1111#4 ∧ rowOrr.hits 0xE380F001 = true ∧
      (0xE380F001#32).extractLsb' 12 4 = 15#4 := by decide
theorem test_witness_WrongFillBit :
    ([0, 11, 16, 19].all fun j => match decodeWord (encode (.mrs .al .spsr 3) ^^^ (1#32 <<< j)) with
      | .error .notAnInScopeInstruction => true | _ => false) = true ∧
    ([4, 15].all fun j => match decodeWord (encode (.msrSpsrReg .al 15 3) ^^^ (1#32 <<< j)) with
      | .error .notAnInScopeInstruction => true | _ => false) = true ∧
    ([12, 15].all fun j => match decodeWord (encode (.msrCpsrImm .al 15 3 1) ^^^ (1#32 <<< j)) with
      | .error .notAnInScopeInstruction => true | _ => false) = true := by decide
theorem test_witness_BitTwentyTwo :
    decodeWord 0xE14F0000 = .ok (.mrs .al .spsr 0) ∧ decodeWord 0xE121F000 = .ok (.msrCpsrReg .al 1 0) ∧
    decodeWord 0xE161F002 = .ok (.msrSpsrReg .al 1 2) ∧ decodeWord 0xE321F0D3 = .ok (.msrCpsrImm .al 1 0 0xD3) ∧
    decodeWord 0xE361F030 = .ok (.msrSpsrImm .al 1 0 0x30) := by decide
theorem test_witness_ImmediateIsRotatedRight : (31 : Nat) < 32 ∧ (imm32 2 0x0F).getLsbD 31 = true := by decide
theorem test_witness_AssembledImmediate : assembleImm 0x000003FC = some (15#4, 0xFF#8) ∧
    imm32 15 0xFF = 0x000003FC#32 ∧ assembleImm 0x101 = none := by decide
/-- The last bit out, by hand: bit 31 by one place left, bit 3 of 0x88 by four places right and bit 4 by five, bit 2
of 4 by three places of arithmetic shift, bit 3 of 8 by a rotation of four, and C itself by no place. -/
theorem test_shift_carry : flagCShift .left 0x80000000 1 false = true ∧ flagCShift .logicalRight 0x88 4 false = true ∧
    flagCShift .logicalRight 0x88 5 true = false ∧ flagCShift .arithmeticRight 4 3 false = true ∧
    flagCShift .rotateRight 8 4 false = true ∧ flagCShift .left 0 0 true = true := by decide
theorem test_witness_ConditionsOrder : ∃ (a b : Word) (p : Psr), p.n = flagN (a - b) ∧ p.z = flagZ (a - b) ∧
    p.c = flagCSub a b ∧ p.v = flagVSub a b ∧ a.toInt < b.toInt ∧ b.toNat < a.toNat :=
  ⟨0x80000000, 1, psrOfWord 0x30000010, by decide⟩
theorem test_witness_FailedCondition : WellFormed (.mrs .ne .spsr 3) ∧ usr.pc ≠ 0xFFFFFFFC#32 ∧
    condPassed (Instr.mrs .ne .spsr 3).cond usr.cpsr = false := by decide
theorem test_witness_OnlyMsrToTheCpsr : ∃ t, exec (.msrCpsrImm .al 0b1000 2 0x0F) usr = .next t ∧
    t.cpsr ≠ usr.cpsr := ⟨_, rfl, by decide⟩
theorem test_witness_SpsrBankOfEachMode : [0x10#32, 0x1F, 0x11, 0x12, 0x13, 0x17, 0x1B].map
    (fun w => (at8000 w).cpsr.m) = [0b10000#5, 0b11111, 0b10001, 0b10010, 0b10011, 0b10111, 0b11011] := by decide
theorem test_witness_BankFunction :
    ([0x10#32, 0x1F, 0x11, 0x12, 0x13, 0x17, 0x1B].all fun w => validMode (at8000 w).cpsr.m) = true ∧
    ((at8000 0x11).writePhys (.fiq 0) 5).readReg (BitVec.ofNat 4 8) = some 5#32 ∧
    ((at8000 0x11).writePhys (.fiq 4) 5).readReg (BitVec.ofNat 4 12) = some 5#32 ∧
    ((at8000 0x11).writePhys (.common 7) 5).readReg (BitVec.ofNat 4 7) = some 5#32 ∧
    ((at8000 0x1B).writePhys (.und 0) 5).readReg (BitVec.ofNat 4 13) = some 5#32 := by decide
theorem test_witness_SharedAndPerMode :
    (spsrBank 0x11 = some .fiq) ∧ ∃ s u : State, validMode s.cpsr.m = true ∧ validMode (psrOfWord 0x1F).m = true ∧
      s.writeReg 14 7 = some u := ⟨by decide, usr, _, by decide, by decide, rfl⟩
theorem test_witness_RegisterReadsAsWritten : validMode svc.cpsr.m = true ∧ (14#4 : RegNum) ≠ 15#4 := by decide
theorem test_witness_ModeSwitch : MsrToCpsr .al 0b0001 0xD1 svc (.msrCpsrImm .al 0b0001 0 0xD1) ∧ Ready .al svc ∧
    (0b0001#4).getLsbD 0 = true ∧ svc.cpsr.m ≠ 0b10000#5 ∧ CpsrOperandOk 0b0001 0xD1 svc :=
  ⟨.immediate (by decide), by decide⟩
theorem test_witness_HighRegistersOfNoMode : Ready .al (at8000 0x14) ∧ validMode (at8000 0x14).cpsr.m = false ∧
    (12#4 : RegNum) ≠ 15#4 := by decide
theorem test_witness_MrsCopies : Ready .al svc ∧ validMode svc.cpsr.m = true ∧ (14#4 : RegNum) ≠ 15#4 ∧
    svc.selectedPsr .cpsr = some svc.cpsr ∧ svc.selectedPsr .spsr = some zeroPsr := by decide
theorem test_witness_MrsFrame : ∃ t, exec (.mrs .al .spsr 14) svc = .next t := ⟨_, rfl⟩
theorem test_witness_MrsStops : Ready .eq usr ∧ usr.cpsr.m = 0b10000#5 ∧ Ready .al (at8000 0x1F) ∧
    (at8000 0x1F).cpsr.m = 0b11111#5 := by decide
theorem test_witness_MsrWritesCpsr_reg : MsrToCpsr .al 0b1001 0x90000012
    (svc.writePhys (.svc 1) 0x90000012) (.msrCpsrReg .al 0b1001 14) ∧ Ready .al (svc.writePhys (.svc 1) 0x90000012) ∧
    CpsrOperandOk 0b1001 0x90000012 (svc.writePhys (.svc 1) 0x90000012) := ⟨.register (by decide), by decide⟩
theorem test_witness_FlagsAreWritable : MsrToCpsr .eq 0b1001 0xF000000F usr (.msrCpsrImm .eq 0b1001 2 0xFF) ∧
    Ready .eq usr ∧ CpsrOperandOk 0b1001 0xF000000F usr ∧ (0b1001#4).getLsbD 3 = true :=
  ⟨.immediate (by decide), by decide⟩
theorem test_witness_PrivilegedBits_user : MsrToCpsr .eq 0b0001 0x14 usr (.msrCpsrImm .eq 0b0001 0 0x14) ∧
    Ready .eq usr ∧ CpsrOperandOk 0b0001 0x14 usr ∧ usr.cpsr.m = 0b10000#5 := ⟨.immediate (by decide), by decide⟩
theorem test_witness_PrivilegedBits_supervisor : MsrToCpsr .al 0b0001 0x10 svc (.msrCpsrImm .al 0b0001 0 0x10) ∧
    Ready .al svc ∧ CpsrOperandOk 0b0001 0x10 svc ∧ svc.cpsr.m ≠ 0b10000#5 := ⟨.immediate (by decide), by decide⟩
theorem test_witness_UnselectedFields :
    (∃ t, exec (.msrCpsrImm .al 0b0110 0 0xFF) svc = .next t) ∧
    MsrToCpsr .al 0b0110 0xFF svc (.msrCpsrImm .al 0b0110 0 0xFF) ∧
    (∃ t, exec (.msrSpsrImm .al 0b0110 0 0xFF) svc = .next t) ∧
    MsrToSpsr .al 0b0110 0xFF svc (.msrSpsrImm .al 0b0110 0 0xFF) ∧
    (0b0110#4).getLsbD 3 = false ∧ (0b0110#4).getLsbD 0 = false :=
  ⟨⟨_, rfl⟩, .immediate (by decide), ⟨_, rfl⟩, .immediate (by decide), by decide, by decide⟩
theorem test_witness_MsrToCpsrStops :
    MsrToCpsr .al 0b0001 0x33 svc (.msrCpsrImm .al 0b0001 0 0x33) ∧ (0x33#32).getLsbD 5 ≠ svc.cpsr.t ∧
    MsrToCpsr .al 0b0001 0x14 svc (.msrCpsrImm .al 0b0001 0 0x14) ∧ (0x14#32).getLsbD 5 = svc.cpsr.t ∧
    svc.cpsr.m ≠ 0b10000#5 ∧ validMode ((0x14#32).extractLsb' 0 5) = false ∧ Ready .al svc :=
  ⟨.immediate (by decide), by decide, .immediate (by decide), by decide, by decide, by decide, by decide⟩
theorem test_witness_MsrWritesSpsr_reg : MsrToSpsr .al 0b1111 0x60000010
    (svc.writePhys (.common 0) 0x60000010) (.msrSpsrReg .al 0b1111 0) ∧
    Ready .al (svc.writePhys (.common 0) 0x60000010) ∧
    spsrBank (svc.writePhys (.common 0) 0x60000010).cpsr.m = some .svc ∧
    ∃ t, exec (.msrSpsrReg .al 0b1111 0) (svc.writePhys (.common 0) 0x60000010) = .next t :=
  ⟨.register (by decide), by decide, by decide, _, rfl⟩
theorem test_witness_MsrToSpsrStops : MsrToSpsr .eq 0 0xFF usr (.msrSpsrImm .eq 0 0 0xFF) ∧ Ready .eq usr ∧
    usr.cpsr.m = 0b10000#5 := ⟨.immediate (by decide), by decide, by decide⟩
theorem test_witness_OperandFormsAgree : (svc.writePhys (.common 3) 0xF0000000).readReg 3 = some (imm32 2 0x0F) := by
  decide
theorem test_witness_ReservedOperandBits : phys svc.cpsr.m 14 = some (.svc 1) ∧
    0x0FFFFFDF#32 &&& 0xF00000FF#32 = 0x000000DF#32 &&& 0xF00000FF#32 ∧
    (∃ t, exec (.msrCpsrReg .al 0b1001 14) (svc.writePhys (.svc 1) 0x0FFFFFDF) = .next t) ∧
    ∃ t, exec (.msrSpsrReg .al 0b1001 14) (svc.writePhys (.svc 1) 0x0FFFFFDF) = .next t :=
  ⟨by decide, by decide, ⟨_, rfl⟩, ⟨_, rfl⟩⟩
/-- The state after the MRS, its SPSR overwritten, serves as the later state. -/
theorem test_witness_SavedSpsrIsRestored : ∃ s t u : State, spsrBank s.cpsr.m = some .irq ∧
    condPassed .al s.cpsr = true ∧ exec (.mrs .al .spsr 0) s = .next t ∧ u.cpsr.m = s.cpsr.m ∧ Ready .ne u ∧
    u.readReg 0 = t.readReg 0 ∧ u.spsrIrq ≠ s.spsrIrq ∧ (0b1111#4).getLsbD 3 = true ∧ (0b1111#4).getLsbD 0 = true :=
  ⟨{ at8000 0x000000D2 with spsrIrq := psrOfWord 0x60000010 }, _,
    { (at8000 0x000000D2).writePhys (.common 0) (psrWord (psrOfWord 0x60000010) (Config.reservedBits 0)) with
      spsrIrq := psrOfWord 0xF000000F }, by decide, by decide, rfl, rfl, by decide, rfl, by decide, by decide, by decide⟩
theorem test_witness_BicAndOrr : Ready .al svc ∧ validMode svc.cpsr.m = true ∧ (14#4 : RegNum) ≠ 15#4 ∧
    svc.readReg 14 = some 0#32 ∧ (∃ t, exec (.bic .al 14 14 0 1) svc = .next t) ∧
    ∃ t, exec (.orr .al 14 14 0 1) svc = .next t :=
  ⟨by decide, by decide, by decide, by decide, ⟨_, rfl⟩, ⟨_, rfl⟩⟩
theorem test_witness_ExceptionReturn : Exn.fiq ≠ .reset ∧ validMode usr.cpsr.m = true ∧
    spsrBank usr.cpsr.m = none ∧ spsrBank svc.cpsr.m = some .svc ∧ validMode (svc.spsr .svc).m = false ∧
    validMode ((svc.setSpsr .svc usr.cpsr).spsr .svc).m = true := by decide
theorem test_witness_DisableBitsMask : interruptAdmitted usr.cpsr true true = some .fiq ∧
    interruptAdmitted usr.cpsr true false = some .irq ∧ svc.cpsr.i = true ∧ svc.cpsr.f = true := by decide
theorem test_witness_DisableBitsSeen : (∀ c rd, Instr.mrs .al .spsr 0 ≠ .mrs c .cpsr rd) ∧
    (∃ t, exec (.mrs .al .spsr 0) svc = .next t) ∧ (∃ r, exec (.mrs .al .spsr 0) (at8000 0x1F) = .fault r) ∧
    (∀ c rd, Instr.bic .al 15 0 0 0 ≠ .mrs c .cpsr rd) ∧ ∃ r, exec (.bic .al 15 0 0 0) svc = .refused r :=
  ⟨(by intro c rd h; cases h), ⟨_, rfl⟩, ⟨_, rfl⟩, (by intro c rd h; cases h), ⟨_, rfl⟩⟩
theorem test_witness_DecodeOfEncode : [Instr.mrs .al .spsr 15, .msrCpsrReg .le 0xF 15, .msrSpsrReg .eq 0 15,
    .msrCpsrImm .al 9 15 0xFF, .msrSpsrImm .ne 1 0 0, .bic .al 14 14 15 0xFF, .orr .gt 0 14 0 1].all wellFormed = true := by
  decide
theorem test_witness_MsrToCpsrFrame : MsrToCpsr .al 0b1111 0x10 svc (.msrCpsrImm .al 0b1111 0 0x10) ∧
    ∃ t, exec (.msrCpsrImm .al 0b1111 0 0x10) svc = .next t := ⟨.immediate (by decide), _, rfl⟩
theorem test_witness_MsrToSpsrFrame : MsrToSpsr .al 0b1111 0x30 svc (.msrSpsrImm .al 0b1111 0 0x30) ∧
    ∃ t, exec (.msrSpsrImm .al 0b1111 0 0x30) svc = .next t := ⟨.immediate (by decide), _, rfl⟩
theorem test_witness_BicAndOrrFrame : (∃ t, exec (.bic .al 14 3 0 0xFF) svc = .next t) ∧
    ∃ t, exec (.orr .al 3 14 0 0xFF) svc = .next t := ⟨⟨_, rfl⟩, _, rfl⟩
theorem test_witness_PcOperandIsRefused : exec (.bic .al 15 0 0 0) svc = .refused .pcOperand ∧
    exec (.orr .eq 0 15 0 0) svc = .refused .pcOperand := ⟨rfl, rfl⟩

end Sys2Proof.Tests
end

section
/-! SUPPORT and proofs of the statements about the state: the SPSR banks, the register table, the bank function, the
flags and who can write them. -/

namespace Sys2Proof.Machine

/-! ### N and Z of a result -/

/-- Settles O25: the top bit of a two's-complement word is its sign. -/
theorem negativeFlagIsTheSign : Obligations.NegativeFlagIsTheSign := by
  intro result
  have sign : flagN result = decide (result.toInt < 0) := by
    rw [← BitVec.msb_eq_toInt, BitVec.msb_eq_getLsbD_last, flagN]
  exact ⟨rfl, by rw [sign, decide_eq_true_iff]⟩

/-- Settles O26: a word is zero exactly when its number is. -/
theorem zeroFlagIsAZeroResult : Obligations.ZeroFlagIsAZeroResult := by
  intro result
  rw [flagZ, beq_iff_eq, BitVec.toNat_eq, BitVec.toNat_zero]

/-! ### The SPSR of a mode -/

@[simp] theorem State.selectedPsr_cpsr (s : State) : s.selectedPsr .cpsr = some s.cpsr := rfl

theorem State.selectedPsr_spsr (s : State) : s.selectedPsr .spsr = (spsrBank s.cpsr.m).map s.spsr := by
  unfold State.selectedPsr
  cases spsrBank s.cpsr.m <;> rfl

@[simp] theorem spsrBank_bits (md : Mode) : spsrBank md.bits = md.bank := by
  simp [spsrBank]

/-- In the mode `md` the SPSR reached is that of its bank, if it has one. -/
theorem State.spsr_of_mode {s : State} {md : Mode} (h : s.cpsr.m = md.bits) :
    spsrBank s.cpsr.m = md.bank ∧ s.selectedPsr .spsr = md.bank.map s.spsr := by
  simp [State.selectedPsr_spsr, h]

/-- Settles O29: the SPSR reached is that of the bank of the mode in CPSR.M. -/
theorem spsrBankOfEachMode : Obligations.SpsrBankOfEachMode := by
  intro s
  refine ⟨?_, ?_, ?_, ?_, ?_, ?_⟩
  · rintro (h | h)
    · exact State.spsr_of_mode (md := .user) h
    · exact State.spsr_of_mode (md := .system) h
  · exact State.spsr_of_mode (md := .fiq)
  · exact State.spsr_of_mode (md := .irq)
  · exact State.spsr_of_mode (md := .supervisor)
  · exact State.spsr_of_mode (md := .abort)
  · exact State.spsr_of_mode (md := .undefined)

/-! ### What each register number names (R32) -/

section Phys

variable {b : ModeBits} {k : Nat}

/-- R0 to R7 are common to all modes, R8 to R12 to all but FIQ mode. -/
theorem phys_common (hk : k ≤ 12) (hb : k ≤ 7 ∨ b ≠ 0b10001#5) :
    phys b (BitVec.ofNat 4 k) = some (.common ⟨k, by omega⟩) := by
  have hn : (BitVec.ofNat 4 k).toNat = k := Nat.mod_eq_of_lt (by omega)
  by_cases h7 : k ≤ 7
  · simp only [phys, hn, h7, dite_true]
  · simp only [phys, hn, h7, hk, dite_true, dite_false, if_neg (hb.resolve_left h7)]

/-- FIQ mode has its own R8 to R12. -/
theorem phys_fiqOwn (hk : 8 ≤ k ∧ k ≤ 12) :
    phys 0b10001#5 (BitVec.ofNat 4 k) = some (.fiq ⟨k - 8, by omega⟩) := by
  have hn : (BitVec.ofNat 4 k).toNat = k := Nat.mod_eq_of_lt (by omega)
  simp only [phys, hn, show ¬ k ≤ 7 by omega, hk.2, dite_true, dite_false, if_true]

/-- R13 and R14 are those of the mode's bank, or the common ones in a mode without a bank. -/
theorem phys_high (md : Mode) (hk : k = 13 ∨ k = 14) :
    phys md.bits (BitVec.ofNat 4 k) =
      some (md.bank.elim (.common ⟨k, by omega⟩) (·.high ⟨k - 13, by omega⟩)) := by
  have hn : (BitVec.ofNat 4 k).toNat = k := Nat.mod_eq_of_lt (by omega)
  simp only [phys, hn, show ¬ k ≤ 7 by omega, show ¬ k ≤ 12 by omega, show k ≤ 14 by omega, dite_true, dite_false,
    Mode.ofBits_bits]
  cases md.bank <;> rfl

/-- A valid mode without a bank names the common R13 and R14. -/
theorem phys_unbanked (hv : validMode b = true) (hb : spsrBank b = none) (hk : k = 13 ∨ k = 14) :
    phys b (BitVec.ofNat 4 k) = some (.common ⟨k, by omega⟩) := by
  obtain ⟨md, rfl⟩ := validMode_cases hv
  rw [phys_high md hk, ← spsrBank_bits, hb, Option.elim_none]

/-- A mode with a bank names the R13 and R14 of that bank. -/
theorem phys_banked {c : Bank} (hb : spsrBank b = some c) (hk : k = 13 ∨ k = 14) :
    phys b (BitVec.ofNat 4 k) = some (c.high ⟨k - 13, by omega⟩) := by
  obtain ⟨md, rfl⟩ := validMode_cases (validMode_of_spsrBank hb)
  rw [phys_high md hk, ← spsrBank_bits, hb, Option.elim_some]

/-- The registers that some number names are those that the numbers 0 to 14 name. -/
theorem exists_phys_iff {r : PhysReg} :
    (∃ n, phys b n = some r) ↔ ∃ k ≤ 14, phys b (BitVec.ofNat 4 k) = some r := by
  refine ⟨fun ⟨n, hn⟩ => ⟨n.toNat, ?_, by rwa [BitVec.ofNat_toNat, BitVec.setWidth_eq]⟩, fun ⟨k, _, hk⟩ => ⟨_, hk⟩⟩
  by_contra h
  obtain rfl : n = 15#4 := BitVec.eq_of_toNat_eq (by have := n.isLt; simp; omega)
  rw [phys_pc] at hn
  cases hn

/-- The general registers of User and System mode: the common ones. -/
theorem exists_phys_unbanked {r : PhysReg} (hv : validMode b = true) (hb : spsrBank b = none) :
    (∃ n, phys b n = some r) ↔ ∃ k, r = .common k := by
  have hf : b ≠ 0b10001#5 := by rintro rfl; cases hb
  have named : ∀ (k : Nat) (hk : k ≤ 14), phys b (BitVec.ofNat 4 k) = some (.common ⟨k, by omega⟩) := by
    intro k hk
    by_cases h12 : k ≤ 12
    · exact phys_common h12 (.inr hf)
    · exact phys_unbanked hv hb (by omega)
  rw [exists_phys_iff]
  constructor
  · rintro ⟨k, hk, h⟩
    rw [named k hk] at h
    exact ⟨_, (Option.some.inj h).symm⟩
  · rintro ⟨k, rfl⟩
    exact ⟨k, by omega, named k (by omega)⟩

/-- The general registers of a mode with a bank, FIQ apart: the common R0 to R12 and its own R13 and R14. -/
theorem exists_phys_banked {c : Bank} {r : PhysReg} (hb : spsrBank b = some c) (hc : c ≠ .fiq) :
    (∃ n, phys b n = some r) ↔ (∃ k, r = .common k ∧ k.val ≤ 12) ∨ ∃ k, r = c.high k := by
  have hf : b ≠ 0b10001#5 := by rintro rfl; exact hc (Option.some.inj hb).symm
  rw [exists_phys_iff]
  constructor
  · rintro ⟨k, hk, h⟩
    by_cases h12 : k ≤ 12
    · rw [phys_common h12 (.inr hf)] at h
      exact .inl ⟨_, (Option.some.inj h).symm, h12⟩
    · rw [phys_banked hb (by omega)] at h
      exact .inr ⟨_, (Option.some.inj h).symm⟩
  · rintro (⟨k, rfl, hk⟩ | ⟨k, rfl⟩)
    · exact ⟨k, by omega, phys_common hk (.inr hf)⟩
    · exact ⟨13 + k, by omega, by rw [phys_banked hb (by omega)]; simp⟩

/-- The general registers of FIQ mode: the common R0 to R7 and its own R8 to R14. -/
theorem exists_phys_fiq {r : PhysReg} :
    (∃ n, phys 0b10001#5 n = some r) ↔ (∃ k, r = .common k ∧ k.val ≤ 7) ∨ ∃ k, r = .fiq k := by
  have own : ∀ (k : Nat) (hk : 8 ≤ k ∧ k ≤ 14),
      phys 0b10001#5 (BitVec.ofNat 4 k) = some (.fiq ⟨k - 8, by omega⟩) := by
    intro k hk
    by_cases h12 : k ≤ 12
    · exact phys_fiqOwn ⟨hk.1, h12⟩
    · rw [phys_banked (c := .fiq) rfl (by omega)]
      simp only [Bank.high, show k - 13 + 5 = k - 8 by omega]
  rw [exists_phys_iff]
  constructor
  · rintro ⟨k, hk, h⟩
    by_cases h7 : k ≤ 7
    · rw [phys_common (by omega) (.inl h7)] at h
      exact .inl ⟨_, (Option.some.inj h).symm, h7⟩
    · rw [own k (by omega)] at h
      exact .inr ⟨_, (Option.some.inj h).symm⟩
  · rintro (⟨k, rfl, hk⟩ | ⟨k, rfl⟩)
    · exact ⟨k, by omega, phys_common (by omega) (.inl hk)⟩
    · exact ⟨8 + k, by omega, by rw [own _ (by omega)]; simp⟩

end Phys

/-- The seven values of the mode table. -/
theorem validMode_iff_mem (m : ModeBits) :
    validMode m = true ↔ m ∈ [0x10#5, 0x11#5, 0x12#5, 0x13#5, 0x17#5, 0x1B#5, 0x1F#5] := by
  revert m; decide

/-- Settles O30: one row of the table per kind of mode, unbanked, FIQ, or banked. -/
theorem modeTable : Obligations.ModeTable :=
  ⟨State.selectedPsr_cpsr, validMode_iff_mem, rfl, rfl, fun _ =>
    ⟨exists_phys_unbanked rfl rfl, exists_phys_unbanked rfl rfl, exists_phys_fiq,
      exists_phys_banked (c := .irq) rfl (by decide), exists_phys_banked (c := .svc) rfl (by decide),
      exists_phys_banked (c := .abt) rfl (by decide), exists_phys_banked (c := .und) rfl (by decide)⟩⟩

/-! ### What `x[n]` reads -/

/-- Register number 15 is read by no `x[n]`. -/
@[simp] theorem State.readReg_pc (s : State) : s.readReg 15#4 = none := by
  simp [State.readReg]

/-- In a mode with a bank, R13 and R14 are read from that bank. -/
theorem State.readReg_banked {s : State} {c : Bank} {k : Nat} (hk : k = 13 ∨ k = 14)
    (hb : spsrBank s.cpsr.m = some c) :
    s.readReg (BitVec.ofNat 4 k) = some (s.readPhys (c.high ⟨k - 13, by omega⟩)) :=
  State.readReg_of_phys (phys_banked hb hk)

/-- Settles O31: each number reads the register that `phys` names. -/
theorem bankFunction : Obligations.BankFunction := by
  intro s k hv
  obtain ⟨hnone, hfiq, hirq, hsvc, habt, hund⟩ := spsrBankOfEachMode s
  refine ⟨fun h => ?low, fun h => ?middle, fun h => ⟨fun hm => ?unbanked, fun hm => ?fiq,
    fun hm => State.readReg_banked h (hirq hm).1, fun hm => State.readReg_banked h (hsvc hm).1,
    fun hm => State.readReg_banked h (habt hm).1, fun hm => State.readReg_banked h (hund hm).1⟩, s.readReg_pc⟩
  case low => exact State.readReg_of_phys (phys_common (by omega) (.inl h))
  case middle =>
    split
    · next hm => exact State.readReg_of_phys (hm ▸ phys_fiqOwn h)
    · next hm => exact State.readReg_of_phys (phys_common h.2 (.inr hm))
  case unbanked => exact State.readReg_of_phys (phys_unbanked hv (hnone hm).1 h)
  case fiq =>
    rw [State.readReg_banked h (hfiq hm).1]
    obtain rfl | rfl := h <;> rfl

/-! ### What an MSR to the CPSR does -/

/-- An instruction's answer depends on its rule only through what the rule does in that state. -/
theorem runRule_congr {s : State} {c : Cond} {rule rule' : State → Host.Outcome State Fault Refusal}
    (h : rule s = rule' s) : s.runRule c rule = s.runRule c rule' := by
  simp only [State.runRule, State.guarded, h]

/-- With a readable Rm the register form runs its rule on what Rm holds. -/
theorem withRm_of_readReg {s : State} {rm : RegNum} {v : Word} (h : s.readReg rm = some v)
    (rule : Word → State → Host.Outcome State Fault Refusal) : withRm rm rule s = rule v s := by
  have hrm : rm ≠ 15#4 := by rintro rfl; simp at h
  simp only [withRm, hrm, if_false, h]

/-- Both forms of MSR to the CPSR run the one rule on their operand. -/
theorem exec_msrToCpsr {c : Cond} {mask : FieldMask} {w : Word} {s : State} {i : Instr} (h : MsrToCpsr c mask w s i) :
    exec i s = s.runRule c (msrCpsrRule mask w) := by
  cases h with
  | register hv => exact runRule_congr (withRm_of_readReg hv _)
  | immediate hw => subst hw; rfl

/-- The converse of `msrCpsrRule_next`: on an acceptable operand neither of the two stops is reached. -/
theorem msrCpsrRule_of_operandOk {mask : FieldMask} {w : Word} {s : State} (h : CpsrOperandOk mask w s) :
    msrCpsrRule mask w s = .next (s.setCpsr (s.cpsr.afterMsrCpsr mask w)) := by
  unfold msrCpsrRule
  cases hc : mask.getLsbD 0 with
  | false => simp only [Bool.false_and, Bool.false_eq_true, if_false]
  | true =>
    obtain ⟨ht, hm⟩ := h hc
    have legal : (privileged s.cpsr.m && !validMode (modeField w)) = false := by
      by_cases hu : s.cpsr.m = 0b10000#5
      · simp [privileged, hu]
      · simp [modeField, hm hu]
    simp only [Bool.true_and, ht, bne_self_eq_false, legal, Bool.false_eq_true, if_false]

/-- An MSR to the CPSR that is ready to run completes on an acceptable operand: the CPSR is written, the pc advanced. -/
theorem exec_msrToCpsr_of_operandOk {c : Cond} {mask : FieldMask} {w : Word} {s : State} {i : Instr}
    (h : MsrToCpsr c mask w s i) (hr : Ready c s) (hw : CpsrOperandOk mask w s) :
    exec i s = .next (s.setCpsr (s.cpsr.afterMsrCpsr mask w)).advancePc := by
  rw [exec_msrToCpsr h, runRule_of_ready hr (msrCpsrRule_of_operandOk hw)]

/-- The flags after an MSR to the CPSR are the operand's exactly when field `f` is selected, whatever the mode. -/
theorem Psr.afterMsrCpsr_flagsTaken (p : Psr) (mask : FieldMask) (w : Word) :
    FlagsTaken (mask.getLsbD 3) w p (p.afterMsrCpsr mask w) := by
  unfold FlagsTaken Psr.afterMsrCpsr
  split
  · split <;> exact ⟨rfl, rfl, rfl, rfl⟩
  · split <;> exact ⟨rfl, rfl, rfl, rfl⟩

/-- Settles O40: the mode decides only over I, F and M. -/
theorem flagsAreWritableInEveryMode : Obligations.FlagsAreWritableInEveryMode := by
  intro c mask w i s hi hr hw hf
  have flags := s.cpsr.afterMsrCpsr_flagsTaken mask w
  rw [FlagsTaken, if_pos hf] at flags
  exact ⟨_, exec_msrToCpsr_of_operandOk hi hr hw, flags⟩

end Sys2Proof.Machine
end

section
/-! SUPPORT and proof of the statement about memory: running an instruction commutes with putting another program text
in place, and no instruction's effect is on the text. -/

namespace Sys2Proof.Machine

/-! ### The state over another program text -/

/-- The same machine with the program text `m`. -/
def State.withMem (s : State) (m : Mem) : State := { s with mem := m }

section WithMem

variable (s : State) (m : Mem)

@[simp] theorem State.withMem_pc : (s.withMem m).pc = s.pc := rfl
@[simp] theorem State.withMem_cpsr : (s.withMem m).cpsr = s.cpsr := rfl
@[simp] theorem State.withMem_draws : (s.withMem m).draws = s.draws := rfl

@[simp] theorem State.spsr_withMem (b : Bank) : (s.withMem m).spsr b = s.spsr b := by cases b <;> rfl
@[simp] theorem State.readPhys_withMem (r : PhysReg) : (s.withMem m).readPhys r = s.readPhys r := by cases r <;> rfl

@[simp] theorem State.readReg_withMem (n : RegNum) : (s.withMem m).readReg n = s.readReg n := by
  simp only [State.readReg, State.withMem_cpsr, State.readPhys_withMem]

@[simp] theorem State.selectedPsr_withMem (psr : PsrSel) : (s.withMem m).selectedPsr psr = s.selectedPsr psr := by
  cases psr with
  | cpsr => rfl
  | spsr => simp only [State.selectedPsr, State.withMem_cpsr, State.spsr_withMem]

/-! Every update commutes with the change of text. -/

@[simp] theorem State.advancePc_withMem : (s.withMem m).advancePc = s.advancePc.withMem m := rfl
@[simp] theorem State.drew_withMem (k : Nat) : (s.withMem m).drew k = (s.drew k).withMem m := rfl
@[simp] theorem State.setCpsr_withMem (p : Psr) : (s.withMem m).setCpsr p = (s.setCpsr p).withMem m := rfl
@[simp] theorem State.setSpsr_withMem (b : Bank) (p : Psr) :
    (s.withMem m).setSpsr b p = (s.setSpsr b p).withMem m := by cases b <;> rfl
@[simp] theorem State.writePhys_withMem (r : PhysReg) (v : Word) :
    (s.withMem m).writePhys r v = (s.writePhys r v).withMem m := by cases r <;> rfl

@[simp] theorem State.writeReg_withMem (n : RegNum) (v : Word) :
    (s.withMem m).writeReg n v = (s.writeReg n v).map (·.withMem m) := by
  cases h : phys s.cpsr.m n <;> simp [State.writeReg, h]

end WithMem

/-! ### The answer over another program text -/

/-- The answer with its next state, if it is one, over the program text `m`; a stop keeps its reason. -/
def answerWithMem (m : Mem) : Host.Outcome State Fault Refusal → Host.Outcome State Fault Refusal
  | .next t => .next (t.withMem m)
  | .fault r => .fault r
  | .refused r => .refused r

section Answer

variable (m : Mem)

@[simp] theorem answerWithMem_next (t : State) : answerWithMem m (.next t) = .next (t.withMem m) := rfl
@[simp] theorem answerWithMem_fault (r : Fault) : answerWithMem m (.fault r) = .fault r := rfl
@[simp] theorem answerWithMem_refused (r : Refusal) : answerWithMem m (.refused r) = .refused r := rfl

variable {s : State}

/-- The pc and the condition are tested on what is not text, so an instruction ignores the text if its rule does. -/
theorem runRule_withMem {c : Cond} {rule : State → Host.Outcome State Fault Refusal}
    (h : rule (s.withMem m) = answerWithMem m (rule s)) :
    (s.withMem m).runRule c rule = answerWithMem m (s.runRule c rule) := by
  simp only [State.runRule, State.guarded, State.withMem_pc, State.withMem_cpsr, h]
  by_cases hpc : s.pc = lastWordAddress
  · simp [hpc]
  · cases hc : condPassed c s.cpsr with
    | false => simp [hpc]
    | true => cases rule s <;> simp [hpc]

theorem refusePc_withMem {rd rn : RegNum} {answer answer' : Host.Outcome State Fault Refusal}
    (h : answer' = answerWithMem m answer) :
    refusePc rd rn answer' = answerWithMem m (refusePc rd rn answer) := by
  subst h
  by_cases hpc : rn = 15#4 ∨ rd = 15#4 <;> simp [refusePc, hpc]

theorem withRm_withMem {rm : RegNum} {rule : Word → State → Host.Outcome State Fault Refusal}
    (h : ∀ w, rule w (s.withMem m) = answerWithMem m (rule w s)) :
    withRm rm rule (s.withMem m) = answerWithMem m (withRm rm rule s) := by
  by_cases hrm : rm = 15#4
  · simp [withRm, hrm]
  · cases hv : s.readReg rm <;> simp [withRm, hrm, hv, h]

theorem dpRule_withMem (f : Word → Word) (rd rn : RegNum) :
    dpRule f rd rn (s.withMem m) = answerWithMem m (dpRule f rd rn s) := by
  cases hv : s.readReg rn with
  | none => simp [dpRule, hv]
  | some v => cases hu : s.writeReg rd (f v) <;> simp [dpRule, hv, hu]

theorem mrsRule_withMem (psr : PsrSel) (rd : RegNum) :
    mrsRule psr rd (s.withMem m) = answerWithMem m (mrsRule psr rd s) := by
  by_cases hrd : rd = 15#4
  · simp [mrsRule, hrd]
  · cases hp : s.selectedPsr psr with
    | none => simp [mrsRule, hrd, hp]
    | some p =>
      cases hu : s.writeReg rd (psrWord p (Config.reservedBits s.draws)) <;> simp [mrsRule, hrd, hp, hu]

theorem msrCpsrRule_withMem (mask : FieldMask) (w : Word) :
    msrCpsrRule mask w (s.withMem m) = answerWithMem m (msrCpsrRule mask w s) := by
  unfold msrCpsrRule
  rw [State.withMem_cpsr]
  split
  · rfl
  · split <;> rfl

theorem msrSpsrRule_withMem (mask : FieldMask) (w : Word) :
    msrSpsrRule mask w (s.withMem m) = answerWithMem m (msrSpsrRule mask w s) := by
  cases hb : spsrBank s.cpsr.m <;> simp [msrSpsrRule, hb]

/-- Over another program text an instruction answers the same, over that text. -/
theorem exec_withMem (i : Instr) : exec i (s.withMem m) = answerWithMem m (exec i s) := by
  cases i with
  | mrs c psr rd => exact runRule_withMem m (mrsRule_withMem m psr rd)
  | msrCpsrReg c mask rm => exact runRule_withMem m (withRm_withMem m (msrCpsrRule_withMem m mask))
  | msrSpsrReg c mask rm => exact runRule_withMem m (withRm_withMem m (msrSpsrRule_withMem m mask))
  | msrCpsrImm c mask rot imm => exact runRule_withMem m (msrCpsrRule_withMem m mask _)
  | msrSpsrImm c mask rot imm => exact runRule_withMem m (msrSpsrRule_withMem m mask _)
  | bic c rd rn rot imm => exact refusePc_withMem m (runRule_withMem m (dpRule_withMem m _ rd rn))
  | orr c rd rn rot imm => exact refusePc_withMem m (runRule_withMem m (dpRule_withMem m _ rd rn))

end Answer

/-! ### The program text after an instruction -/

/-- No effect of an instruction is on memory. -/
theorem Effect.mem {s u : State} (h : Effect s u) : u.mem = s.mem := by
  cases h <;> simp

theorem exec_mem {i : Instr} {s t : State} (h : exec i s = .next t) : t.mem = s.mem := by
  obtain ⟨-, u, hu, rfl⟩ := exec_next h
  rw [State.advancePc_mem, hu.mem]

/-- Settles O7: over another program text the answer is the same one over that text, and no effect is on memory. -/
theorem instructionsAccessNoMemory : Obligations.InstructionsAccessNoMemory := by
  intro i s m
  have answer : exec i { s with mem := m } = answerWithMem m (exec i s) := exec_withMem m i
  refine ⟨fun t ht => ⟨exec_mem ht, ?_⟩, fun r hr => ?_, fun r hr => ?_⟩
  · rw [answer, ht]; rfl
  · rw [answer, hr, answerWithMem_fault]
  · rw [answer, hr, answerWithMem_refused]

end Sys2Proof.Machine
end

section
/-! SUPPORT and proof of the statement about bit 22: what the decoder answers, said once, and the bits that a row of its
table fixes. -/

namespace Sys2Proof

open Sys2Proof.Machine

/-- What a word of condition `c` decodes to: the instruction of a row it lies in, whose operands are the word's fields
(R60). BIC and ORR name no register 15 (R81). -/
inductive Decoded (w : Word) (c : Cond) : Instr → Prop where
  | mrs : rowMrs.hits w = true → Decoded w c (.mrs c (psrField w) (rdField w))
  | msrCpsrReg : rowMsrCpsrReg.hits w = true → Decoded w c (.msrCpsrReg c (maskField w) (rmField w))
  | msrSpsrReg : rowMsrSpsrReg.hits w = true → Decoded w c (.msrSpsrReg c (maskField w) (rmField w))
  | msrCpsrImm : rowMsrCpsrImm.hits w = true → Decoded w c (.msrCpsrImm c (maskField w) (rotField w) (immField w))
  | msrSpsrImm : rowMsrSpsrImm.hits w = true → Decoded w c (.msrSpsrImm c (maskField w) (rotField w) (immField w))
  | bic : rowBic.hits w = true → rnField w ≠ 15#4 → rdField w ≠ 15#4 →
      Decoded w c (.bic c (rdField w) (rnField w) (rotField w) (immField w))
  | orr : rowOrr.hits w = true → rnField w ≠ 15#4 → rdField w ≠ 15#4 →
      Decoded w c (.orr c (rdField w) (rnField w) (rotField w) (immField w))

theorem unlessPc_ok {w : Word} {i j : Instr} (h : unlessPc w i = .ok j) :
    rnField w ≠ 15#4 ∧ rdField w ≠ 15#4 ∧ i = j := by
  unfold unlessPc at h
  split at h
  · cases h
  · next hpc => exact ⟨fun e => hpc (.inl e), fun e => hpc (.inr e), Except.ok.inj h⟩

/-- The decoder answers with an instruction only as `Decoded` says. -/
theorem decodeWord_ok {w : Word} {i : Instr} (h : decodeWord w = .ok i) :
    ∃ c, Cond.ofBits (condField w) = some c ∧ Decoded w c i := by
  unfold decodeWord at h
  split at h
  · cases h
  · next c hc =>
    refine ⟨c, hc, ?_⟩
    split at h
    · next hr => cases h; exact .mrs hr
    split at h
    · next hr => cases h; exact .msrCpsrReg hr
    split at h
    · next hr => cases h; exact .msrSpsrReg hr
    split at h
    · next hr => cases h; exact .msrCpsrImm hr
    split at h
    · next hr => cases h; exact .msrSpsrImm hr
    split at h
    · next hr => obtain ⟨hn, hd, rfl⟩ := unlessPc_ok h; exact .bic hr hn hd
    split at h
    · next hr => obtain ⟨hn, hd, rfl⟩ := unlessPc_ok h; exact .orr hr hn hd
    · cases h

/-- A decoded word lies in the row of its instruction. -/
theorem hits_of_decodeWord {w : Word} {i : Instr} (h : decodeWord w = .ok i) : (rowOf i).hits w = true := by
  obtain ⟨c, -, hd⟩ := decodeWord_ok h
  cases hd <;> assumption

/-- The decoder reads the PSR of an MRS from bit 22. -/
theorem psr_of_decodeWord_mrs {w : Word} {c : Cond} {psr : PsrSel} {rd : RegNum}
    (h : decodeWord w = .ok (.mrs c psr rd)) : psr = psrField w := by
  obtain ⟨_, -, hd⟩ := decodeWord_ok h
  cases hd
  rfl

/-- In a row's words the bits that its mask selects are those of its pattern. -/
theorem Row.getLsbD_of_hits (r : Row) (j : Nat) {w : Word} (h : r.hits w = true) (hj : r.mask.getLsbD j = true) :
    w.getLsbD j = r.pattern.getLsbD j := by
  rw [← beq_iff_eq.mp h, BitVec.getLsbD_and, hj, Bool.and_true]

/-- Settles O19: the MRS row leaves bit 22 free and the decoder reads the PSR from it; each of the four MSR rows fixes
it. -/
theorem bitTwentyTwoSelectsThePsr : Obligations.BitTwentyTwoSelectsThePsr := by
  refine ⟨fun w c psr rd h => psr_of_decodeWord_mrs h, fun w c mask rm => ⟨fun h => ?_, fun h => ?_⟩,
    fun w c mask rot imm => ⟨fun h => ?_, fun h => ?_⟩, fun s => ⟨s.selectedPsr_cpsr, s.selectedPsr_spsr⟩⟩
  · exact Row.getLsbD_of_hits rowMsrCpsrReg 22 (hits_of_decodeWord h) (by decide)
  · exact Row.getLsbD_of_hits rowMsrSpsrReg 22 (hits_of_decodeWord h) (by decide)
  · exact Row.getLsbD_of_hits rowMsrCpsrImm 22 (hits_of_decodeWord h) (by decide)
  · exact Row.getLsbD_of_hits rowMsrSpsrImm 22 (hits_of_decodeWord h) (by decide)

end Sys2Proof
end

section
/-! SUPPORT and proof of the statement about shared registers: in which modes a register number names one register. -/

namespace Sys2Proof.Machine

/-- Two valid modes have one bank, or both none, exactly where they are one mode or User and System mode. -/
theorem spsrBank_eq_iff {a b : ModeBits} (ha : validMode a = true) (hb : validMode b = true) :
    spsrBank a = spsrBank b ↔
      a = b ∨ (a = 0b10000#5 ∧ b = 0b11111#5) ∨ (a = 0b11111#5 ∧ b = 0b10000#5) := by
  obtain ⟨md, rfl⟩ := validMode_cases ha
  obtain ⟨md', rfl⟩ := validMode_cases hb
  rw [spsrBank_bits, spsrBank_bits]
  cases md <;> cases md' <;> decide

/-- A bank belongs to one mode. -/
theorem spsrBank_injective {a b : ModeBits} {k : Bank} (ha : spsrBank a = some k) (hb : spsrBank b = some k) :
    a = b := by
  obtain h | ⟨rfl, -⟩ | ⟨rfl, -⟩ :=
    (spsrBank_eq_iff (validMode_of_spsrBank ha) (validMode_of_spsrBank hb)).mp (ha.trans hb.symm)
  · exact h
  · cases ha
  · cases ha

theorem Bank.high_ne_common (c : Bank) (j : Fin 2) (i : Fin 15) : c.high j ≠ .common i := by
  cases c <;> exact PhysReg.noConfusion

/-- The R13s of two banks are two registers, and so are the R14s. -/
theorem Bank.high_injective {c c' : Bank} {j : Fin 2} (h : c.high j = c'.high j) : c = c' := by
  cases c <;> cases c' <;> cases h <;> rfl

section SameRegister

variable {a b : ModeBits} {k : Nat}

/-- R8 to R12 are the same registers in two modes but where one of them is FIQ mode and the other is not. -/
theorem phys_middle_eq_iff (hk : 8 ≤ k ∧ k ≤ 12) :
    phys a (BitVec.ofNat 4 k) = phys b (BitVec.ofNat 4 k) ↔ (a ≠ 0b10001#5 ∧ b ≠ 0b10001#5) ∨ a = b := by
  by_cases ha : a = 0b10001#5
  · by_cases hb : b = 0b10001#5
    · simp [ha, hb]
    · rw [ha, phys_fiqOwn hk, phys_common hk.2 (.inr hb)]
      simp [Ne.symm hb]
  · by_cases hb : b = 0b10001#5
    · rw [hb, phys_fiqOwn hk, phys_common hk.2 (.inr ha)]
      simp [ha]
    · rw [phys_common hk.2 (.inr ha), phys_common hk.2 (.inr hb)]
      simp [ha, hb]

/-- R13 and R14 are the same registers in two valid modes exactly where the modes have one bank, or both none. -/
theorem phys_high_eq_iff (ha : validMode a = true) (hb : validMode b = true) (hk : k = 13 ∨ k = 14) :
    phys a (BitVec.ofNat 4 k) = phys b (BitVec.ofNat 4 k) ↔ spsrBank a = spsrBank b := by
  cases hca : spsrBank a with
  | none =>
    cases hcb : spsrBank b with
    | none => rw [phys_unbanked ha hca hk, phys_unbanked hb hcb hk]; simp
    | some c' =>
      rw [phys_unbanked ha hca hk, phys_banked hcb hk]
      simp [(c'.high_ne_common _ _).symm]
  | some c =>
    cases hcb : spsrBank b with
    | none =>
      rw [phys_banked hca hk, phys_unbanked hb hcb hk]
      simp [c.high_ne_common]
    | some c' =>
      rw [phys_banked hca hk, phys_banked hcb hk, Option.some_inj, Option.some_inj]
      exact ⟨Bank.high_injective, fun h => h ▸ rfl⟩

/-- R97: where a register number names the same register in two valid modes. -/
theorem phys_eq_iff (ha : validMode a = true) (hb : validMode b = true) (hk : k ≤ 14) :
    phys a (BitVec.ofNat 4 k) = phys b (BitVec.ofNat 4 k) ↔
      k ≤ 7 ∨ (k ≤ 12 ∧ a ≠ 0b10001#5 ∧ b ≠ 0b10001#5) ∨ a = b ∨
        (a = 0b10000#5 ∧ b = 0b11111#5) ∨ (a = 0b11111#5 ∧ b = 0b10000#5) := by
  by_cases h7 : k ≤ 7
  · simp [phys_common (by omega : k ≤ 12) (.inl h7), h7]
  · by_cases h12 : k ≤ 12
    · rw [phys_middle_eq_iff ⟨by omega, h12⟩]
      constructor
      · rintro (h | h)
        · exact .inr (.inl ⟨h12, h⟩)
        · exact .inr (.inr (.inl h))
      · rintro (h | ⟨-, h⟩ | h | ⟨rfl, rfl⟩ | ⟨rfl, rfl⟩)
        · exact absurd h h7
        · exact .inl h
        · exact .inr h
        · exact .inl (by decide)
        · exact .inl (by decide)
    · rw [phys_high_eq_iff ha hb (by omega), spsrBank_eq_iff ha hb]
      simp [h7, h12]

end SameRegister

/-- Settles O32: a write is seen in the other mode exactly where the number names the same register in both. -/
theorem sharedAndPerModeRegisters : Obligations.SharedAndPerModeRegisters := by
  refine ⟨fun a b k => spsrBank_injective, fun s u n v p hs hp hw => ?_⟩
  obtain ⟨r, hr, rfl⟩ := State.writeReg_some hw
  have hn : n ≠ 15#4 := by rintro rfl; simp at hr
  obtain ⟨r', hr'⟩ := phys_of_validMode hp hn
  have read (t : State) : (t.setCpsr p).readReg n = some (t.readPhys r') := by
    rw [State.readReg_of_phys (r := r') hr', State.readPhys_setCpsr]
  have same := phys_eq_iff hs hp (k := n.toNat) (by bv_omega)
  rw [BitVec.ofNat_toNat, BitVec.setWidth_eq, hr, hr', Option.some_inj] at same
  refine ⟨by simp, ?_⟩
  rw [read, read]
  split
  · next h => rw [← same.mpr h, State.readPhys_writePhys_same]
  · next h => rw [State.readPhys_writePhys_other s v fun e => h (same.mp e.symm)]

end Sys2Proof.Machine
end

section
/-! SUPPORT and proofs of the statements about every step: what the effect of one instruction keeps, said once for each
field, and from it the invariant, the pc, User mode and the banks that a step can touch. -/

namespace Sys2Proof.Machine

/-! ### Reset -/

/-- Settles O1: the values are fields of `State.reset`. -/
theorem resetHoldsTheNamedValues : Obligations.ResetHoldsTheNamedValues :=
  ⟨rfl, rfl, rfl, rfl, rfl⟩

/-- Settles O2: pc 0 is aligned and 10011 is Supervisor mode. -/
theorem resetMeetsInvariant : Obligations.ResetMeetsInvariant where
  aligned := rfl
  armState := rfl
  legalMode := validMode_bits .supervisor
  canonical := reset_mem_wf

/-! ### What the effect of an instruction keeps -/

/-- In User mode field `c` is ignored (R76): at most the flags change. -/
theorem Psr.afterMsrCpsr_user {p : Psr} (h : p.m = 0b10000#5) (mask : FieldMask) (w : Word) :
    p.afterMsrCpsr mask w = if mask.getLsbD 3 then p.withFlags w else p := by
  simp [Psr.afterMsrCpsr, privileged, h]

section Effect

variable {s u : State} (h : Effect s u)
include h

theorem Effect.pc : u.pc = s.pc := by cases h <;> simp

theorem Effect.cpsr_t : u.cpsr.t = s.cpsr.t := by cases h <;> simp

/-- The only effect that can change the mode is the CPSR write, and that one tested the mode it writes. -/
theorem Effect.validMode (hv : validMode s.cpsr.m = true) : validMode u.cpsr.m = true := by
  cases h with
  | none => exact hv
  | register n r v k hr => simpa using hv
  | spsr b p hb => simpa using hv
  | cpsr mask w ht hm =>
    rw [State.setCpsr_cpsr, Psr.afterMsrCpsr_m]
    split
    · next hc =>
      obtain ⟨hmask, hpriv⟩ := Bool.and_eq_true_iff.mp hc
      exact hm hmask hpriv
    · exact hv

/-- From User mode an effect reaches the flags of the CPSR at most. -/
theorem Effect.cpsr_user (hu : s.cpsr.m = 0b10000#5) :
    u.cpsr.m = s.cpsr.m ∧ u.cpsr.i = s.cpsr.i ∧ u.cpsr.f = s.cpsr.f := by
  cases h with
  | none => exact ⟨rfl, rfl, rfl⟩
  | register n r v k hr => simp
  | spsr b p hb => simp
  | cpsr mask w ht hm =>
    rw [State.setCpsr_cpsr, Psr.afterMsrCpsr_user hu]
    split <;> exact ⟨rfl, rfl, rfl⟩

/-- A register that the mode cannot name is not written. -/
theorem Effect.readPhys_of_unnamed {r : PhysReg} (hr : ∀ n, phys s.cpsr.m n ≠ some r) :
    u.readPhys r = s.readPhys r := by
  cases h with
  | none => rfl
  | register n q v k hq =>
    have hne : r ≠ q := by rintro rfl; exact hr n hq
    rw [State.readPhys_drew, State.readPhys_writePhys_other s v hne]
  | cpsr mask w ht hm => exact State.readPhys_setCpsr ..
  | spsr b p hb => exact State.readPhys_setSpsr ..

/-- An SPSR that is not the mode's own is not written. -/
theorem Effect.spsr_of_other {b : Bank} (hb : spsrBank s.cpsr.m ≠ some b) : u.spsr b = s.spsr b := by
  cases h with
  | none => rfl
  | register n q v k hq => simp
  | cpsr mask w ht hm => exact State.spsr_setCpsr ..
  | spsr k p hk =>
    have hne : b ≠ k := by rintro rfl; exact hb hk
    exact State.spsr_setSpsr_other s p hne

end Effect

/-- A step that answers: ARM state, not the last word, one effect, and the pc advanced. -/
theorem step_next_effect {s t : State} (h : step s = .next t) :
    s.pc ≠ lastWordAddress ∧ ∃ u, Effect s u ∧ t = u.advancePc := by
  obtain ⟨-, i, -, hi⟩ := step_next h
  exact exec_next hi

/-! ### The invariant -/

/-- From an aligned pc that is not the last word, pc + 4 does not wrap. -/
theorem toNat_pc_add_four {pc : Word} (ha : pc.toNat % 4 = 0) (hl : pc ≠ lastWordAddress) :
    (pc + 4#32).toNat = pc.toNat + 4 := by
  have hne : pc.toNat ≠ 4294967292 := fun e => hl (BitVec.eq_of_toNat_eq e)
  bv_omega

/-- Settles O11: every instruction that completes advanced an aligned pc that was not the last word. -/
theorem completedStepMovesToTheNextWord : Obligations.CompletedStepMovesToTheNextWord := by
  intro s t hs h
  obtain ⟨hpc, u, hu, rfl⟩ := step_next_effect h
  rw [State.advancePc_pc, hu.pc, toNat_pc_add_four hs.aligned hpc]

/-- Settles O3: one clause at a time, from what the effect of an instruction keeps. -/
theorem stepKeepsInvariant : Obligations.StepKeepsInvariant := by
  intro s t hs h
  have hnext := completedStepMovesToTheNextWord s t hs h
  obtain ⟨-, u, hu, rfl⟩ := step_next_effect h
  exact
    { aligned := by rw [hnext, Nat.add_mod_right, hs.aligned]
      armState := hu.cpsr_t.trans hs.armState
      legalMode := hu.validMode hs.legalMode
      canonical := by rw [State.advancePc_mem, hu.mem, hs.canonical] }

/-- Settles O4, by induction on the run. -/
theorem finishedRunKeepsInvariant : Obligations.FinishedRunKeepsInvariant := by
  intro stop s t hs h
  induction h with
  | here hpc => exact ⟨hs, hpc⟩
  | more _ hstep _ ih => exact ih (stepKeepsInvariant _ _ hs hstep)

/-! ### Modes and banks -/

/-- Settles O6: the effect touches only what the mode names, and advancing the pc touches no bank. -/
theorem stepTouchesOnlyItsOwnBanks : Obligations.StepTouchesOnlyItsOwnBanks := by
  intro s t h
  obtain ⟨-, u, hu, rfl⟩ := step_next_effect h
  exact ⟨fun r hr => by rw [State.readPhys_advancePc, hu.readPhys_of_unnamed hr],
    fun b hb => by rw [State.spsr_advancePc, hu.spsr_of_other hb]⟩

/-- Settles O5: User mode has no SPSR to write, and field `c` of the CPSR is ignored in it. -/
theorem userModeIsNeverLeft : Obligations.UserModeIsNeverLeft := by
  intro s t hm h
  obtain ⟨hregs, hspsrs⟩ := stepTouchesOnlyItsOwnBanks s t h
  obtain ⟨-, u, hu, rfl⟩ := step_next_effect h
  obtain ⟨um, ui, uf⟩ := hu.cpsr_user hm
  have unbanked : spsrBank s.cpsr.m = none := hm ▸ spsrBank_bits .user
  exact ⟨um.trans hm, ui, uf, hu.cpsr_t, fun b => hspsrs b (by simp [unbanked]), hm ▸ hregs⟩

end Sys2Proof.Machine
end

section
/-! SUPPORT and proofs of the statements about the decoder and the encoder: the rows of its table are told apart by bits
27:20, the fields of an encoding are the operands, and a decoded word has no bit besides. -/

namespace Sys2Proof

open Sys2Proof.Laws

/-! ### The rows of the table -/

/-- In bits 27:20, which every two rows tell apart, the patterns of two rows agree on both masks for one row only. -/
theorem rows_eq_of_patterns_agree {r q : Row} (hr : r ∈ rows) (hq : q ∈ rows)
    (h : r.pattern &&& q.mask &&& 0x0FF00000#32 = q.pattern &&& r.mask &&& 0x0FF00000#32) : r = q := by
  have table : ∀ r ∈ rows, ∀ q ∈ rows,
      r.pattern &&& q.mask &&& 0x0FF00000#32 = q.pattern &&& r.mask &&& 0x0FF00000#32 → r = q := by decide
  exact table r hr q hq h

/-- Two words with the same bits 27:20 lie in no two different rows. -/
theorem rows_eq_of_hits {r q : Row} {w w' : Word} (hr : r ∈ rows) (hq : q ∈ rows) (hw : r.hits w = true)
    (hw' : q.hits w' = true) (h : w &&& 0x0FF00000#32 = w' &&& 0x0FF00000#32) : r = q := by
  refine rows_eq_of_patterns_agree hr hq ?_
  rw [← beq_iff_eq.mp hw, ← beq_iff_eq.mp hw']
  calc w &&& r.mask &&& q.mask &&& 0x0FF00000#32
      = w &&& 0x0FF00000#32 &&& r.mask &&& q.mask := by ac_rfl
    _ = w' &&& q.mask &&& r.mask &&& 0x0FF00000#32 := by rw [h]; ac_rfl

/-- Settles O15: a word has the same bits 27:20 as itself. -/
theorem decoderRowsAreDisjoint : Obligations.DecoderRowsAreDisjoint :=
  fun _ _ _ hr hq hw hw' => rows_eq_of_hits hr hq hw hw' rfl

/-- A word of one row is of no other. -/
theorem hits_eq_false {r q : Row} {w : Word} (hr : r.hits w = true) (hr' : r ∈ rows) (hq : q ∈ rows) (hne : q ≠ r) :
    q.hits w = false :=
  Bool.eq_false_iff.mpr fun h => hne (decoderRowsAreDisjoint q r w hq hr' h hr)

theorem rowOf_mem (i : Instr) : rowOf i ∈ rows := by
  cases i <;> simp [rowOf, rows]

/-! ### What the decoder answers -/

/-- The one code that is no condition. -/
theorem Cond.ofBits_eq_none_iff (b : BitVec 4) : Cond.ofBits b = none ↔ b = 15#4 := by
  revert b; decide

theorem Cond.bits_of_ofBits {b : BitVec 4} {c : Cond} (h : Cond.ofBits b = some c) : c.bits = b := by
  revert b c; decide

theorem Cond.exists_ofBits {b : BitVec 4} (h : b ≠ 15#4) : ∃ c, Cond.ofBits b = some c :=
  Option.ne_none_iff_exists'.mp fun e => h ((Cond.ofBits_eq_none_iff b).mp e)

/-- A word of no row is refused, whatever its condition but 1111. -/
theorem decodeWord_of_no_row {w : Word} (hc : condField w ≠ 15#4) (h : ∀ r ∈ rows, r.hits w = false) :
    decodeWord w = .error .notAnInScopeInstruction := by
  obtain ⟨c, hc⟩ := Cond.exists_ofBits hc
  simp (disch := decide) [decodeWord, hc, h]

/-- The converse of `decodeWord_ok`: what `Decoded` gives a word is what the decoder answers, no other row being hit. -/
theorem decodeWord_of_decoded {w : Word} {c : Cond} {i : Instr} (hc : Cond.ofBits (condField w) = some c)
    (h : Decoded w c i) : decodeWord w = .ok i := by
  cases h with
  | mrs hr => simp [decodeWord, hc, hr]
  | msrCpsrReg hr => simp (disch := decide) [decodeWord, hc, hr, hits_eq_false hr]
  | msrSpsrReg hr => simp (disch := decide) [decodeWord, hc, hr, hits_eq_false hr]
  | msrCpsrImm hr => simp (disch := decide) [decodeWord, hc, hr, hits_eq_false hr]
  | msrSpsrImm hr => simp (disch := decide) [decodeWord, hc, hr, hits_eq_false hr]
  | bic hr hn hd => simp (disch := decide) [decodeWord, hc, hr, hits_eq_false hr, unlessPc, hn, hd]
  | orr hr hn hd => simp (disch := decide) [decodeWord, hc, hr, hits_eq_false hr, unlessPc, hn, hd]

/-- A word decodes exactly to what `Decoded` says of it. -/
theorem decodeWord_ok_iff {w : Word} {i : Instr} :
    decodeWord w = .ok i ↔ ∃ c, Cond.ofBits (condField w) = some c ∧ Decoded w c i :=
  ⟨decodeWord_ok, fun ⟨_, hc, h⟩ => decodeWord_of_decoded hc h⟩

/-- Settles O16: the condition is looked at first, then the rows, and only then the operands of BIC and ORR. -/
theorem decoderRefusesByName : Obligations.DecoderRefusesByName := by
  intro w
  refine ⟨fun h => ?_, decodeWord_of_no_row, fun h hrow hpc => ?_⟩
  · have hc : Cond.ofBits (condField w) = none := (Cond.ofBits_eq_none_iff _).mpr h
    simp [decodeWord, hc]
  · obtain ⟨c, hc⟩ := Cond.exists_ofBits (b := condField w) h
    have refuse : ∀ i, unlessPc w i = .error .pcOperand := fun i => if_pos hpc
    obtain hr | hr := hrow
    · simp (disch := decide) [decodeWord, hc, hr, hits_eq_false hr, refuse]
    · simp (disch := decide) [decodeWord, hc, hr, hits_eq_false hr, refuse]

/-- Settles O18: the decoder run on nine words. -/
theorem wordsOfTheSpecDecode : Obligations.WordsOfTheSpecDecode :=
  ⟨rfl, rfl, rfl, rfl, rfl, rfl, rfl, rfl, rfl⟩

/-! ### The word of an instruction -/

theorem encodeRow (i : Instr) : EncodeRow.Statement i := by
  cases i with
  | mrs c psr rd => exact EncodeRow.mrs c psr rd
  | msrCpsrReg c mask rm => exact EncodeRow.msrCpsrReg c mask rm
  | msrSpsrReg c mask rm => exact EncodeRow.msrSpsrReg c mask rm
  | msrCpsrImm c mask rot imm => exact EncodeRow.msrCpsrImm c mask rot imm
  | msrSpsrImm c mask rot imm => exact EncodeRow.msrSpsrImm c mask rot imm
  | bic c rd rn rot imm => exact EncodeRow.bic c rd rn rot imm
  | orr c rd rn rot imm => exact EncodeRow.orr c rd rn rot imm

theorem hits_encode (i : Instr) : (rowOf i).hits (encode i) = true := (encodeRow i).1

theorem ofBits_condField_encode (i : Instr) : Cond.ofBits (condField (encode i)) = some i.cond := (encodeRow i).2

theorem psrField_bit (w : Word) : (psrField w).bit = BitVec.ofBool (w.getLsbD 22) := by
  unfold psrField
  cases w.getLsbD 22 <;> rfl

/-! The fields of a word are its operands: an append is cut at the place of the field. -/

section Fields

open BitVec (extractLsb'_append_eq_of_le extractLsb'_append_eq_right)

variable (c : Cond) (mask : FieldMask) (rd rn rm : RegNum) (rot : BitVec 4) (imm : Byte)

theorem fields_encode_mrs (psr : PsrSel) :
    psrField (encode (.mrs c psr rd)) = psr ∧ rdField (encode (.mrs c psr rd)) = rd := by
  constructor
  · simp only [encode, psrField, BitVec.getLsbD_append]
    cases psr <;> simp [PsrSel.bit]
  · simp (disch := decide) only [encode, rdField, extractLsb'_append_eq_of_le, Nat.reduceSub,
      extractLsb'_append_eq_right]

theorem fields_encode_msrCpsrReg :
    maskField (encode (.msrCpsrReg c mask rm)) = mask ∧ rmField (encode (.msrCpsrReg c mask rm)) = rm := by
  simp (disch := decide) only [encode, maskField, rmField, extractLsb'_append_eq_of_le, Nat.reduceSub,
    extractLsb'_append_eq_right, and_self]

theorem fields_encode_msrSpsrReg :
    maskField (encode (.msrSpsrReg c mask rm)) = mask ∧ rmField (encode (.msrSpsrReg c mask rm)) = rm := by
  simp (disch := decide) only [encode, maskField, rmField, extractLsb'_append_eq_of_le, Nat.reduceSub,
    extractLsb'_append_eq_right, and_self]

theorem fields_encode_msrCpsrImm :
    maskField (encode (.msrCpsrImm c mask rot imm)) = mask ∧ rotField (encode (.msrCpsrImm c mask rot imm)) = rot ∧
      immField (encode (.msrCpsrImm c mask rot imm)) = imm := by
  simp (disch := decide) only [encode, maskField, rotField, immField, extractLsb'_append_eq_of_le,
    Nat.reduceSub, extractLsb'_append_eq_right, and_self]

theorem fields_encode_msrSpsrImm :
    maskField (encode (.msrSpsrImm c mask rot imm)) = mask ∧ rotField (encode (.msrSpsrImm c mask rot imm)) = rot ∧
      immField (encode (.msrSpsrImm c mask rot imm)) = imm := by
  simp (disch := decide) only [encode, maskField, rotField, immField, extractLsb'_append_eq_of_le,
    Nat.reduceSub, extractLsb'_append_eq_right, and_self]

theorem fields_encode_bic :
    rdField (encode (.bic c rd rn rot imm)) = rd ∧ rnField (encode (.bic c rd rn rot imm)) = rn ∧
      rotField (encode (.bic c rd rn rot imm)) = rot ∧ immField (encode (.bic c rd rn rot imm)) = imm := by
  simp (disch := decide) only [encode, rdField, rnField, rotField, immField, extractLsb'_append_eq_of_le,
    Nat.reduceSub, extractLsb'_append_eq_right, and_self]

theorem fields_encode_orr :
    rdField (encode (.orr c rd rn rot imm)) = rd ∧ rnField (encode (.orr c rd rn rot imm)) = rn ∧
      rotField (encode (.orr c rd rn rot imm)) = rot ∧ immField (encode (.orr c rd rn rot imm)) = imm := by
  simp (disch := decide) only [encode, rdField, rnField, rotField, immField, extractLsb'_append_eq_of_le,
    Nat.reduceSub, extractLsb'_append_eq_right, and_self]

end Fields

/-- The word of a well-formed instruction stands for that instruction. -/
theorem decoded_encode {i : Instr} (h : WellFormed i) : Decoded (encode i) i.cond i := by
  have hit := hits_encode i
  cases i with
  | mrs c psr rd =>
    obtain ⟨hpsr, hrd⟩ := fields_encode_mrs c rd psr
    simpa only [hpsr, hrd, Instr.cond] using Decoded.mrs (c := c) hit
  | msrCpsrReg c mask rm =>
    obtain ⟨hmask, hrm⟩ := fields_encode_msrCpsrReg c mask rm
    simpa only [hmask, hrm, Instr.cond] using Decoded.msrCpsrReg (c := c) hit
  | msrSpsrReg c mask rm =>
    obtain ⟨hmask, hrm⟩ := fields_encode_msrSpsrReg c mask rm
    simpa only [hmask, hrm, Instr.cond] using Decoded.msrSpsrReg (c := c) hit
  | msrCpsrImm c mask rot imm =>
    obtain ⟨hmask, hrot, himm⟩ := fields_encode_msrCpsrImm c mask rot imm
    simpa only [hmask, hrot, himm, Instr.cond] using Decoded.msrCpsrImm (c := c) hit
  | msrSpsrImm c mask rot imm =>
    obtain ⟨hmask, hrot, himm⟩ := fields_encode_msrSpsrImm c mask rot imm
    simpa only [hmask, hrot, himm, Instr.cond] using Decoded.msrSpsrImm (c := c) hit
  | bic c rd rn rot imm =>
    obtain ⟨hrd, hrn, hrot, himm⟩ := fields_encode_bic c rd rn rot imm
    simp only [WellFormed, wellFormed, Bool.and_eq_true, bne_iff_ne] at h
    simpa only [hrd, hrn, hrot, himm, Instr.cond] using Decoded.bic (c := c) hit (hrn.trans_ne h.2) (hrd.trans_ne h.1)
  | orr c rd rn rot imm =>
    obtain ⟨hrd, hrn, hrot, himm⟩ := fields_encode_orr c rd rn rot imm
    simp only [WellFormed, wellFormed, Bool.and_eq_true, bne_iff_ne] at h
    simpa only [hrd, hrn, hrot, himm, Instr.cond] using Decoded.orr (c := c) hit (hrn.trans_ne h.2) (hrd.trans_ne h.1)

/-- Settles O13: the word lies in its row alone, and its fields are the operands. -/
theorem decodeOfEncodeIsTheInstruction : Obligations.DecodeOfEncodeIsTheInstruction :=
  fun i h => decodeWord_of_decoded (ofBits_condField_encode i) (decoded_encode h)

/-- A word is the encoding of what it decodes to: in the bits that the row fixes both are the pattern, and every other
bit lies in a field. -/
theorem encode_of_decoded {w : Word} {c : Cond} {i : Instr} (hc : c.bits = condField w) (h : Decoded w c i) :
    encode i = w := by
  have hit : (rowOf i).hits w = true := by cases h <;> assumption
  apply BitVec.eq_of_getLsbD_eq
  intro j hj
  cases hm : (rowOf i).mask.getLsbD j with
  | true => rw [Row.getLsbD_of_hits _ j (hits_encode i) hm, Row.getLsbD_of_hits _ j hit hm]
  | false =>
    revert hm
    cases h <;>
      simp only [rowOf, rowMrs, rowMsrCpsrReg, rowMsrSpsrReg, rowMsrCpsrImm, rowMsrSpsrImm, rowBic, rowOrr, encode, hc,
        psrField_bit, condField, maskField, rdField, rnField, rmField, rotField, immField, BitVec.getLsbD_append,
        BitVec.getLsbD_extractLsb'] <;>
      interval_cases j <;> simp

theorem Decoded.wellFormed {w : Word} {c : Cond} {i : Instr} (h : Decoded w c i) : WellFormed i := by
  cases h with
  | bic _ hn hd => simp [WellFormed, Sys2Proof.wellFormed, hn, hd]
  | orr _ hn hd => simp [WellFormed, Sys2Proof.wellFormed, hn, hd]
  | _ => rfl

/-- Settles O14: every bit of a decoded word is fixed by its row or is an operand's. -/
theorem decodedWordIsItsEncoding : Obligations.DecodedWordIsItsEncoding := by
  intro w i h
  obtain ⟨c, hc, hd⟩ := decodeWord_ok h
  exact ⟨encode_of_decoded (Cond.bits_of_ofBits hc) hd, hd.wellFormed⟩

/-! ### Wrong fill bits -/

/-- Flipping a bit below 20 that the row fixes leaves an encoding in no row: its own row has the other value there, and
bits 27:20, which stay, tell every other row apart. -/
theorem decodeWord_flip_encode {i : Instr} {j : Nat} (hj : j < 20) (hm : (rowOf i).mask.getLsbD j = true) :
    decodeWord (encode i ^^^ (1#32 <<< j)) = .error .notAnInScopeInstruction := by
  have high : ∀ k, 20 ≤ k → (1#32 <<< j).getLsbD k = false := by
    intro k hk
    simp [BitVec.getLsbD_one, show k - j ≠ 0 by omega]
  have hc : condField (encode i ^^^ (1#32 <<< j)) = condField (encode i) := by
    apply BitVec.eq_of_getLsbD_eq
    intro k hk
    simp only [condField, BitVec.getLsbD_extractLsb', BitVec.getLsbD_xor, high (28 + k) (by omega), Bool.xor_false]
  have same : (encode i ^^^ (1#32 <<< j)) &&& 0x0FF00000#32 = encode i &&& 0x0FF00000#32 := by
    apply BitVec.eq_of_getLsbD_eq
    intro k hk
    by_cases hk20 : 20 ≤ k
    · simp only [BitVec.getLsbD_and, BitVec.getLsbD_xor, high k hk20, Bool.xor_false]
    · have low : ∀ k < 20, (0x0FF00000#32).getLsbD k = false := by decide
      simp only [BitVec.getLsbD_and, low k (by omega), Bool.and_false]
  refine decodeWord_of_no_row ?_ fun r hr => Bool.eq_false_iff.mpr fun hit => ?_
  · rw [hc]
    intro h15
    have := ofBits_condField_encode i
    rw [(Cond.ofBits_eq_none_iff _).mpr h15] at this
    cases this
  · obtain rfl := rows_eq_of_hits hr (rowOf_mem i) hit (hits_encode i) same
    have := (Row.getLsbD_of_hits _ j hit hm).trans (Row.getLsbD_of_hits _ j (hits_encode i) hm).symm
    simp [show j < 32 by omega] at this

/-- Settles O17: the masks of the MRS and MSR rows fix every fill bit. -/
theorem wrongFillBitIsRefused : Obligations.WrongFillBitIsRefused := by
  have mrs : ∀ j < 20, j < 12 ∨ 16 ≤ j → rowMrs.mask.getLsbD j = true := by decide
  have reg : ∀ j < 16, 4 ≤ j → rowMsrCpsrReg.mask.getLsbD j = true := by decide
  have imm : ∀ j < 16, 12 ≤ j → rowMsrCpsrImm.mask.getLsbD j = true := by decide
  intro c j
  refine ⟨fun psr rd h => ?_, fun mask rm h4 h16 => ⟨?_, ?_⟩, fun mask rot im h12 h16 => ⟨?_, ?_⟩⟩
  · exact decodeWord_flip_encode (by omega) (mrs j (by omega) (by omega))
  · exact decodeWord_flip_encode (by omega) (reg j h16 h4)
  · exact decodeWord_flip_encode (by omega) (reg j h16 h4)
  · exact decodeWord_flip_encode (by omega) (imm j h16 h12)
  · exact decodeWord_flip_encode (by omega) (imm j h16 h12)

end Sys2Proof
end

section
/-! SUPPORT and proofs of the statements about one step: what it runs or why it stops, told by the word at the pc. -/

namespace Sys2Proof.Machine

/-- There is a word at an address where there are its four bytes. -/
theorem State.text_eq_some_iff {s : State} {a w : Word} :
    s.text a = some w ↔
      ∃ b0 b1 b2 b3, s.textBytes a = some (b0, b1, b2, b3) ∧ wordOfBytes s.order b0 b1 b2 b3 = w := by
  unfold State.text
  split
  · next b0 b1 b2 b3 hb => simp [hb]
  · next hb => simp [hb]

/-- Thumb state is refused whatever the text. -/
theorem step_of_thumb {s : State} (ht : s.cpsr.t = true) : step s = .refused .thumbState := by
  simp [step, fetch, ht]

/-- In ARM state no step goes where there is no text. -/
theorem step_of_no_text {s : State} (ht : s.cpsr.t = false) (hw : s.text s.pc = none) : step s = .fault .stuck := by
  have hb : s.textBytes s.pc = none := by
    unfold State.text at hw
    split at hw
    · cases hw
    · assumption
  simp [step, fetch, ht, hb]

section Text

variable {s : State} {w : Word} (ht : s.cpsr.t = false) (hw : s.text s.pc = some w)
include ht hw

theorem fetch_of_decodeWord_ok {i : Instr} (hi : decodeWord w = .ok i) : fetch s = .next i := by
  obtain ⟨b0, b1, b2, b3, hb, rfl⟩ := State.text_eq_some_iff.mp hw
  simp [fetch, ht, hb, decodeBytes, hi]

theorem fetch_of_decodeWord_error {e : DecodeError} (he : decodeWord w = .error e) : fetch s = rejection e := by
  obtain ⟨b0, b1, b2, b3, hb, rfl⟩ := State.text_eq_some_iff.mp hw
  simp [fetch, ht, hb, decodeBytes, he]

theorem step_of_decodeWord_ok {i : Instr} (hi : decodeWord w = .ok i) : step s = exec i s := by
  simp [step, fetch_of_decodeWord_ok ht hw hi]

end Text

/-- Settles O9: one lemma for each stop of `fetch`. -/
theorem stepStopsInTheOrderOfTheSpec : Obligations.StepStopsInTheOrderOfTheSpec := by
  intro s
  refine ⟨step_of_thumb, step_of_no_text, fun w ht hw => ⟨fun he => ?_, fun he => ?_, fun he => ?_, fun i hi => ?_⟩⟩
  · simp [step, fetch_of_decodeWord_error ht hw he, rejection]
  · simp [step, fetch_of_decodeWord_error ht hw he, rejection]
  · simp [step, fetch_of_decodeWord_error ht hw he, rejection]
  · exact step_of_decodeWord_ok ht hw hi

/-- Settles O8: four bytes that decode are a word that decodes. -/
theorem stepRunsTheDecodedInstruction : Obligations.StepRunsTheDecodedInstruction := by
  intro s b0 b1 b2 b3 i ht ha h0 h1 h2 h3 hi
  have hw : s.text s.pc = some (wordOfBytes s.order b0 b1 b2 b3) :=
    State.text_eq_some_iff.mpr ⟨b0, b1, b2, b3, by simp [State.textBytes, ha, h0, h1, h2, h3], rfl⟩
  refine step_of_decodeWord_ok ht hw ?_
  simp only [decodeBytes] at hi
  split at hi
  · next hd => cases hi; exact hd
  · cases hi

/-- Placing a word of 32 bits is loading it at the pc. -/
theorem State.withFetchWord_toNat (s : State) (w : Word) : s.withFetchWord 32 w.toNat = s.loadWord s.pc w := by
  simp [State.withFetchWord, tableWord, Nat.mod_eq_of_lt w.isLt]

/-- Settles O10: the placed word is the one fetched, and it decodes to its instruction. -/
theorem placedInstructionRuns : Obligations.PlacedInstructionRuns := by
  intro i s hi ht ha
  rw [State.withFetchWord_toNat]
  have hw := s.text_loadWord (encode i) ha
  have hdecode := decodeOfEncodeIsTheInstruction i hi
  refine ⟨step_of_decodeWord_ok (s := s.loadWord s.pc (encode i)) ht hw hdecode, fun hs => ?_⟩
  exact
    { aligned := ha
      armState := ht
      legalMode := hs.legalMode
      canonical := loadWord_wf s s.pc (encode i) hs.canonical
      textAtPc := Option.isSome_iff_exists.mpr ⟨_, hw⟩ }

end Sys2Proof.Machine
end

section
/-! SUPPORT and proofs of the statements about operands, conditions and flags: a rotation bit by bit, the assembler's
search, and the flags of a sum and a difference against exact arithmetic. -/

namespace Sys2Proof.Machine

/-! ### The rotated immediate -/

/-- Bit `j` of a word rotated right by `n` is bit `j + n`, counted around. -/
theorem getLsbD_ror32 (v : Word) {n j : Nat} (hn : n < 32) (hj : j < 32) :
    (ror32 v n).getLsbD j = v.getLsbD ((j + n) % 32) := by
  simp only [ror32, BitVec.getLsbD_or, BitVec.getLsbD_ushiftRight, BitVec.getLsbD_shiftLeft]
  by_cases h : j + n < 32
  · simp [Nat.mod_eq_of_lt h, Nat.add_comm n j, show j < 32 - n by omega]
  · have wrap : (j + n) % 32 = j - (32 - n) := by omega
    simp [wrap, hj, BitVec.getLsbD_of_ge v (n + j) (by omega), show ¬ j < 32 - n by omega]

/-- An immediate is rotated by less than a whole turn. -/
theorem two_mul_rot_lt (rot : BitVec 4) : 2 * rot.toNat < 32 := by
  have := rot.isLt
  omega

/-- Settles O20: the byte is zero-extended and rotated. -/
theorem immediateIsRotatedRight : Obligations.ImmediateIsRotatedRight := by
  intro rot imm j hj
  have hn := two_mul_rot_lt rot
  rw [imm32, getLsbD_ror32 _ hn hj, BitVec.getLsbD_setWidth]
  simp [Nat.mod_lt]

/-- Rotating right by `n` and by `32 - n`, counted around, is rotating by nothing. -/
theorem ror32_ror32 (v : Word) {n k : Nat} (hn : n < 32) (hk : k < 32) (h : (n + k) % 32 = 0) :
    ror32 (ror32 v n) k = v := by
  apply BitVec.eq_of_getLsbD_eq
  intro j hj
  rw [getLsbD_ror32 _ hk hj, getLsbD_ror32 _ hn (Nat.mod_lt _ (by decide)), show ((j + k) % 32 + n) % 32 = j by omega]

/-! ### The assembler -/

/-- A word below 256 is its low byte, zero-extended. -/
theorem setWidth_lowByte {w : Word} (h : w.toNat < 256) : (w.setWidth 8).setWidth 32 = w := by
  apply BitVec.eq_of_toNat_eq
  simp only [BitVec.toNat_setWidth]
  omega

/-- A rotation and a byte give a constant exactly when the assembler finds that byte for that rotation. -/
theorem immFor_eq_some_iff {v : Word} {rot : BitVec 4} {imm : Byte} : immFor v rot = some imm ↔ imm32 rot imm = v := by
  have hn := two_mul_rot_lt rot
  have hk : (32 - 2 * rot.toNat) % 32 < 32 := Nat.mod_lt _ (by decide)
  constructor
  · intro h
    simp only [immFor] at h
    split at h
    · next hlt => rw [imm32, ← Option.some.inj h, setWidth_lowByte hlt, ror32_ror32 _ hk hn (by omega)]
    · cases h
  · rintro rfl
    have hlt : (imm.setWidth 32).toNat < 256 := by have := imm.isLt; simp only [BitVec.toNat_setWidth]; omega
    simp only [immFor, imm32, ror32_ror32 _ hn hk (by omega : (2 * rot.toNat + (32 - 2 * rot.toNat) % 32) % 32 = 0)]
    rw [if_pos hlt]
    simp

/-- The search gives a rotation of the list that works, and in a rising list no smaller one does. -/
theorem firstRotation_eq_some {v : Word} {l : List (BitVec 4)} {rot : BitVec 4} {imm : Byte}
    (hl : l.Pairwise (·.toNat < ·.toNat)) (h : firstRotation v l = some (rot, imm)) :
    immFor v rot = some imm ∧ ∀ r ∈ l, (immFor v r).isSome = true → rot.toNat ≤ r.toNat := by
  induction l with
  | nil => cases h
  | cons q qs ih =>
    obtain ⟨hq, hqs⟩ := List.pairwise_cons.mp hl
    simp only [firstRotation] at h
    split at h
    · next b hb =>
      cases h
      refine ⟨hb, fun r hr _ => ?_⟩
      obtain rfl | hr := List.mem_cons.mp hr
      · exact Nat.le_refl _
      · exact Nat.le_of_lt (hq r hr)
    · next hnone =>
      obtain ⟨hrot, hmin⟩ := ih hqs h
      refine ⟨hrot, fun r hr hs => ?_⟩
      obtain rfl | hr := List.mem_cons.mp hr
      · simp [hnone] at hs
      · exact hmin r hr hs

theorem firstRotation_eq_none {v : Word} {l : List (BitVec 4)} (h : firstRotation v l = none) :
    ∀ r ∈ l, immFor v r = none := by
  induction l with
  | nil => simp
  | cons q qs ih =>
    simp only [firstRotation] at h
    split at h
    · cases h
    · next hnone => exact List.forall_mem_cons.mpr ⟨hnone, ih h⟩

/-- Settles O21: the search runs through all sixteen rotations, the smallest first. -/
theorem assembledImmediateIsExactAndSmallest : Obligations.AssembledImmediateIsExactAndSmallest := by
  have all : ∀ r : BitVec 4, r ∈
      [0#4, 1#4, 2#4, 3#4, 4#4, 5#4, 6#4, 7#4, 8#4, 9#4, 10#4, 11#4, 12#4, 13#4, 14#4, 15#4] := by decide
  refine fun v => ⟨fun rot imm h => ?_, fun h rot imm hv => ?_⟩
  · obtain ⟨hrot, hmin⟩ := firstRotation_eq_some (by decide) h
    refine ⟨immFor_eq_some_iff.mp hrot, fun rot' imm' hv => hmin rot' (all rot') ?_⟩
    rw [immFor_eq_some_iff.mpr hv, Option.isSome_some]
  · have hnone := firstRotation_eq_none h rot (all rot)
    rw [immFor_eq_some_iff.mpr hv] at hnone
    cases hnone

/-! ### Signed sums and differences -/

/-- An integer between twice the bounds of a signed word is changed by wrapping exactly when it overflows. -/
theorem signedOverflow_iff_bmod_ne {x : Int} (h : -2 ^ 32 ≤ x ∧ x < 2 ^ 32) :
    signedOverflow x = true ↔ x.bmod (2 ^ 32) ≠ x := by
  simp only [signedOverflow, Int.bmod_def, Bool.or_eq_true, decide_eq_true_eq]
  omega

/-- Wrapping changes the sign of an integer that overflows and of no other. -/
theorem bmod_neg_iff {x : Int} (h : -2 ^ 32 ≤ x ∧ x < 2 ^ 32) :
    x.bmod (2 ^ 32) < 0 ↔ (x < 0 ↔ signedOverflow x = false) := by
  simp only [signedOverflow, Int.bmod_def, Bool.or_eq_false_iff, decide_eq_false_iff_not]
  omega

theorem toInt_bounds (a : Word) : -2 ^ 31 ≤ a.toInt ∧ a.toInt < 2 ^ 31 :=
  ⟨a.le_toInt, a.toInt_lt⟩

theorem toInt_add_bounds (a b : Word) : -2 ^ 32 ≤ a.toInt + b.toInt ∧ a.toInt + b.toInt < 2 ^ 32 := by
  have ha := toInt_bounds a
  have hb := toInt_bounds b
  omega

theorem toInt_sub_bounds (a b : Word) : -2 ^ 32 ≤ a.toInt - b.toInt ∧ a.toInt - b.toInt < 2 ^ 32 := by
  have ha := toInt_bounds a
  have hb := toInt_bounds b
  omega

/-- V of an addition: the signed sum is not the exact one. -/
theorem flagVAdd_iff (a b : Word) : flagVAdd a b = true ↔ (a + b).toInt ≠ a.toInt + b.toInt := by
  rw [BitVec.toInt_add, flagVAdd, signedOverflow_iff_bmod_ne (toInt_add_bounds a b)]

/-- V of a subtraction: the signed difference is not the exact one. -/
theorem flagVSub_iff (a b : Word) : flagVSub a b = true ↔ (a - b).toInt ≠ a.toInt - b.toInt := by
  rw [BitVec.toInt_sub, flagVSub, signedOverflow_iff_bmod_ne (toInt_sub_bounds a b)]

/-- N and V of a subtraction agree exactly when its first operand is, signed, not the smaller one. -/
theorem flagN_eq_flagVSub_iff (a b : Word) : flagN (a - b) = flagVSub a b ↔ b.toInt ≤ a.toInt := by
  have hN : flagN (a - b) = true ↔ (a.toInt - b.toInt < 0 ↔ flagVSub a b = false) := by
    rw [(negativeFlagIsTheSign (a - b)).2, BitVec.toInt_sub, bmod_neg_iff (toInt_sub_bounds a b), flagVSub]
  rw [Bool.eq_iff_iff, hN]
  cases flagVSub a b <;> simp

/-! ### Conditions -/

/-- Settles O22: each condition is its test. -/
theorem conditionTable : Obligations.ConditionTable := by
  intro p
  simp [condPassed]

/-- Settles O23: Z tells the operands equal, C orders them unsigned, and N with V signed. -/
theorem conditionsOrderTheOperandsOfASubtraction : Obligations.ConditionsOrderTheOperandsOfASubtraction := by
  intro a b p hn hz hc hv
  have equal : p.z = true ↔ a = b := by rw [hz, flagZ, beq_iff_eq]; bv_omega
  have unsigned : p.c = true ↔ b.toNat ≤ a.toNat := by rw [hc, flagCSub, decide_eq_true_iff]
  have signed : p.n = p.v ↔ b.toInt ≤ a.toInt := by rw [hn, hv, flagN_eq_flagVSub_iff]
  have equalNat : a = b ↔ a.toNat = b.toNat := BitVec.toNat_eq
  have equalInt : a = b ↔ a.toInt = b.toInt := BitVec.toInt_inj.symm
  obtain ⟨eq, -, cs, cc, -, -, -, -, hi, ls, ge, lt, gt, le, -⟩ := conditionTable p
  refine ⟨?_, ?_, ?_, ?_, ?_, ?_, ?_, ?_, ?_⟩
  · rw [eq, equal]
  · rw [cs, unsigned]
  · rw [cc, Bool.not_eq_true', ← Bool.not_eq_true, unsigned, Nat.not_le]
  · rw [hi, ← Bool.not_eq_true, unsigned, equal, equalNat]; omega
  · rw [ls, ← Bool.not_eq_true, unsigned, equal, equalNat]; omega
  · rw [ge, signed]
  · rw [lt, ne_eq, signed, Int.not_le]
  · rw [gt, ← Bool.not_eq_true, signed, equal, equalInt]; omega
  · rw [le, ne_eq, signed, equal, equalInt]; omega

/-! ### What carry and overflow lose -/

/-- The last bit that a shift by `n + 1` places pushes out. -/
theorem flagCShift_succ (a : Word) (n : Nat) (c : Bool) :
    flagCShift .left a (n + 1) c = (decide (n < 32) && a.getLsbD (31 - n)) ∧
      flagCShift .logicalRight a (n + 1) c = a.getLsbD n ∧
      flagCShift .arithmeticRight a (n + 1) c = a.getLsbD (min n 31) ∧
      flagCShift .rotateRight a (n + 1) c = a.getLsbD (n % 32) := by
  refine ⟨?_, ?_, ?_, ?_⟩ <;> simp only [flagCShift, shiftedOut]
  · rw [getLsbD_shiftBy_left a n (by decide), decide_eq_decide.mpr (by omega : n ≤ 31 ↔ n < 32)]
  · rw [getLsbD_shiftBy_logicalRight, Nat.zero_add]
  · rw [getLsbD_shiftBy_arithmeticRight a n (by decide), Nat.zero_add]
  · rw [getLsbD_shiftBy_rotateRight a n (by decide), Nat.zero_add]

/-- Settles O27: the sums and differences against the exact ones, the shifts by their last bit. -/
theorem carryAndOverflowSayWhatIsLost : Obligations.CarryAndOverflowSayWhatIsLost := by
  intro a b
  have ha := a.isLt
  have hb := b.isLt
  refine ⟨?_, ?_, flagVAdd_iff a b, flagVSub_iff a b, fun n c => ⟨fun k => rfl, flagCShift_succ a n c⟩⟩
  · rw [flagCAdd, decide_eq_true_iff, BitVec.toNat_add]; omega
  · rw [flagCSub, decide_eq_true_iff, BitVec.toNat_sub]; omega

end Sys2Proof.Machine
end

section
/-! SUPPORT and proofs of the statements about registers, MRS, BIC and ORR: what is read after a write, how the shared
part of every instruction ends, and what each of the three completes with, leaves alone and stops on. -/

namespace Sys2Proof.Machine

/-! ### What `x[n]` reads after an update -/

theorem State.readReg_eq_map (s : State) (n : RegNum) : s.readReg n = (phys s.cpsr.m n).map s.readPhys := by
  unfold State.readReg
  cases phys s.cpsr.m n <;> rfl

@[simp] theorem State.readReg_advancePc (s : State) (n : RegNum) : s.advancePc.readReg n = s.readReg n := by
  simp [State.readReg]

@[simp] theorem State.readReg_drew (s : State) (k : Nat) (n : RegNum) : (s.drew k).readReg n = s.readReg n := by
  simp [State.readReg]

section Write

variable {s : State} {n : RegNum} {r : PhysReg} (hr : phys s.cpsr.m n = some r) (v : Word)
include hr

theorem State.readReg_writePhys_same : (s.writePhys r v).readReg n = some v := by
  rw [State.readReg_of_phys (r := r) (by simpa using hr), State.readPhys_writePhys_same]

/-- No other number names the register written. -/
theorem State.readReg_writePhys_other {k : RegNum} (hk : k ≠ n) : (s.writePhys r v).readReg k = s.readReg k := by
  rw [State.readReg_eq_map, State.readReg_eq_map, State.writePhys_cpsr]
  cases hq : phys s.cpsr.m k with
  | none => rfl
  | some q =>
    have hne : q ≠ r := by rintro rfl; exact hk (phys_injective hq hr)
    rw [Option.map_some, Option.map_some, State.readPhys_writePhys_other s v hne]

end Write

/-- Settles O33: in a valid mode a number but 15 names one register, which no other number names. -/
theorem registerReadsAsWritten : Obligations.RegisterReadsAsWritten := by
  intro s n v hm hn
  obtain ⟨r, hr⟩ := phys_of_validMode hm hn
  exact ⟨_, State.writeReg_of_phys hr v, State.readReg_writePhys_same hr v,
    fun k hk => State.readReg_writePhys_other hr v hk⟩

/-! ### The shared part of every instruction (R38 lines 5 to 8) -/

section RunRule

variable {s : State} {c : Cond} {rule : State → Host.Outcome State Fault Refusal}

theorem runRule_of_lastWord (h : s.pc = lastWordAddress) : s.runRule c rule = .refused .pcWrap := by
  simp [State.runRule, h]

theorem runRule_of_failed (hpc : s.pc ≠ lastWordAddress) (hc : condPassed c s.cpsr = false) :
    s.runRule c rule = .next s.advancePc := by
  simp [State.runRule, State.guarded, hpc, hc]

/-- `runRule_of_ready` for a rule that stops. -/
theorem runRule_of_ready_fault {r : Fault} (hr : Ready c s) (hu : rule s = .fault r) : s.runRule c rule = .fault r := by
  simp [State.runRule, State.guarded, hr.1, hr.2, hu]

end RunRule

theorem refusePc_of_ne {rd rn : RegNum} (hd : rd ≠ 15#4) (hn : rn ≠ 15#4)
    (answer : Host.Outcome State Fault Refusal) : refusePc rd rn answer = answer := by
  simp [refusePc, hd, hn]

/-- Every well-formed instruction runs a rule under the shared tests of the pc and the condition. -/
theorem exec_eq_runRule {i : Instr} (h : WellFormed i) (s : State) :
    ∃ rule, exec i s = s.runRule i.cond rule := by
  cases i with
  | mrs c psr rd => exact ⟨_, rfl⟩
  | msrCpsrReg c mask rm => exact ⟨_, rfl⟩
  | msrSpsrReg c mask rm => exact ⟨_, rfl⟩
  | msrCpsrImm c mask rot imm => exact ⟨_, rfl⟩
  | msrSpsrImm c mask rot imm => exact ⟨_, rfl⟩
  | bic c rd rn rot imm =>
    simp only [WellFormed, wellFormed, Bool.and_eq_true, bne_iff_ne] at h
    exact ⟨_, refusePc_of_ne h.1 h.2 _⟩
  | orr c rd rn rot imm =>
    simp only [WellFormed, wellFormed, Bool.and_eq_true, bne_iff_ne] at h
    exact ⟨_, refusePc_of_ne h.1 h.2 _⟩

/-- Settles O12: the pc is tested before the rule and the condition. -/
theorem lastWordIsRefused : Obligations.LastWordIsRefused := by
  intro i s hi hpc
  obtain ⟨rule, hrule⟩ := exec_eq_runRule hi s
  rw [hrule, runRule_of_lastWord hpc]

/-- Settles O24: the rule is not looked at. -/
theorem failedConditionOnlyAdvancesThePc : Obligations.FailedConditionOnlyAdvancesThePc := by
  intro i s hi hpc hc
  obtain ⟨rule, hrule⟩ := exec_eq_runRule hi s
  rw [hrule, runRule_of_failed hpc hc]
  rfl

/-! ### Instructions that write one register -/

/-- Advancing the pc after one register write, or after nothing, leaves all else. -/
theorem runRule_register_frame {s t : State} {c : Cond} {rd : RegNum} {rule : State → Host.Outcome State Fault Refusal}
    (hrule : ∀ u, rule s = .next u → ∃ r v k, phys s.cpsr.m rd = some r ∧ u = (s.writePhys r v).drew k)
    (h : s.runRule c rule = .next t) :
    SameRegistersExcept rd s t ∧ t.cpsr = s.cpsr ∧ SameSpsrs s t ∧ SameText s t := by
  obtain ⟨-, ⟨-, rfl⟩ | ⟨-, u, hu, rfl⟩⟩ := runRule_next h
  · exact ⟨fun r _ => s.readPhys_advancePc r, rfl, s.spsr_advancePc, s.byteAt_advancePc, rfl⟩
  · obtain ⟨r, v, k, hr, rfl⟩ := hrule u hu
    refine ⟨fun q hq => ?_, by simp, fun b => by simp, fun a => by simp, by simp⟩
    have hne : q ≠ r := by rintro rfl; exact hq hr
    rw [State.readPhys_advancePc, State.readPhys_drew, State.readPhys_writePhys_other s v hne]

/-! ### MRS -/

/-- The converse of `mrsRule_next`. -/
theorem mrsRule_of_phys {s : State} {psr : PsrSel} {rd : RegNum} {p : Psr} {r : PhysReg} (hrd : rd ≠ 15#4)
    (hp : s.selectedPsr psr = some p) (hr : phys s.cpsr.m rd = some r) :
    mrsRule psr rd s = .next ((s.writePhys r (psrWord p (Config.reservedBits s.draws))).drew 1) := by
  simp [mrsRule, hrd, hp, State.writeReg_of_phys hr]

/-- Settles O36: Rd receives the image of the PSR. -/
theorem mrsCopiesTheSelectedPsr : Obligations.MrsCopiesTheSelectedPsr := by
  intro c psr rd s p hready hm hrd hp
  obtain ⟨r, hr⟩ := phys_of_validMode hm hrd
  refine ⟨_, psrWord p (Config.reservedBits s.draws), runRule_of_ready hready (mrsRule_of_phys hrd hp hr), ?_, ?_⟩
  · rw [State.readReg_advancePc, State.readReg_drew, State.readReg_writePhys_same hr]
  · exact ⟨by simp, by simp, by simp, by simp, by simp, by simp, by simp, psrWord_modeField p _⟩

/-- Settles O37: MRS is one register write. -/
theorem mrsFrame : Obligations.MrsFrame := by
  intro c psr rd s t h
  refine runRule_register_frame (fun u hu => ?_) h
  obtain ⟨-, p, r, -, hr, rfl⟩ := mrsRule_next hu
  exact ⟨r, _, 1, hr, rfl⟩

/-- Settles O38: Rd is looked at first, then the SPSR. -/
theorem mrsStops : Obligations.MrsStops := by
  intro c psr rd s hready
  refine ⟨fun hrd => runRule_of_ready_fault hready ?_, fun hrd hm => runRule_of_ready_fault hready ?_⟩
  · simp [mrsRule, hrd]
  · have hp : s.selectedPsr .spsr = none := ((spsrBankOfEachMode s).1 hm).2
    simp [mrsRule, hrd, hp]

/-! ### BIC and ORR -/

/-- The converse of `dpRule_next`. -/
theorem dpRule_of_phys {s : State} {rd rn : RegNum} {v : Word} {r : PhysReg} (f : Word → Word)
    (hv : s.readReg rn = some v) (hr : phys s.cpsr.m rd = some r) :
    dpRule f rd rn s = .next (s.writePhys r (f v)) := by
  simp [dpRule, hv, State.writeReg_of_phys hr]

/-- With registers other than 15, BIC and ORR complete and leave in Rd their function of what Rn held. -/
theorem runRule_dpRule_of_ready {s : State} {c : Cond} {rd rn : RegNum} {v : Word} (f : Word → Word)
    (hready : Ready c s) (hm : validMode s.cpsr.m = true) (hrd : rd ≠ 15#4) (hrn : rn ≠ 15#4)
    (hv : s.readReg rn = some v) :
    ∃ t, refusePc rd rn (s.runRule c (dpRule f rd rn)) = .next t ∧ t.readReg rd = some (f v) := by
  obtain ⟨r, hr⟩ := phys_of_validMode hm hrd
  refine ⟨_, (refusePc_of_ne hrd hrn _).trans (runRule_of_ready hready (dpRule_of_phys f hv hr)), ?_⟩
  rw [State.readReg_advancePc, State.readReg_writePhys_same hr]

/-- Settles O51: each bit of the word that BIC leaves in Rd. -/
theorem bicClearsTheImmediateBits : Obligations.BicClearsTheImmediateBits := by
  intro c rd rn rot imm s v hready hm hrd hrn hv
  obtain ⟨t, ht, hx⟩ := runRule_dpRule_of_ready (fun v => v &&& ~~~(imm32 rot imm)) hready hm hrd hrn hv
  refine ⟨t, _, ht, hx, fun j => ?_⟩
  rw [BitVec.getLsbD_and, BitVec.getLsbD_not]
  by_cases hj : j < 32
  · simp [hj]
  · simp [BitVec.getLsbD_of_ge v j (by omega)]

/-- Settles O52: each bit of the word that ORR leaves in Rd. -/
theorem orrSetsTheImmediateBits : Obligations.OrrSetsTheImmediateBits := by
  intro c rd rn rot imm s v hready hm hrd hrn hv
  obtain ⟨t, ht, hx⟩ := runRule_dpRule_of_ready (fun v => v ||| imm32 rot imm) hready hm hrd hrn hv
  exact ⟨t, _, ht, hx, fun j => BitVec.getLsbD_or⟩

theorem dpRule_frame {s t : State} {c : Cond} {rd rn : RegNum} {f : Word → Word}
    (h : refusePc rd rn (s.runRule c (dpRule f rd rn)) = .next t) :
    SameRegistersExcept rd s t ∧ t.cpsr = s.cpsr ∧ SameSpsrs s t ∧ SameText s t := by
  obtain ⟨-, -, h⟩ := refusePc_next h
  refine runRule_register_frame (fun u hu => ?_) h
  obtain ⟨v, r, -, hr, rfl⟩ := dpRule_next hu
  exact ⟨r, f v, 0, hr, rfl⟩

/-- Settles O53: BIC and ORR are one register write. -/
theorem bicAndOrrFrame : Obligations.BicAndOrrFrame := by
  rintro c rd rn rot imm i s t (rfl | rfl) h
  · exact dpRule_frame h
  · exact dpRule_frame h

/-- Settles O54: the operands are looked at before the pc and the condition. -/
theorem pcOperandIsRefused : Obligations.PcOperandIsRefused :=
  fun _ _ _ _ _ _ h => ⟨if_pos h.symm, if_pos h.symm⟩

/-! ### While CPSR.M is no mode (log 7) -/

section NoMode

variable {s : State} {n : RegNum} (hm : validMode s.cpsr.m = false) (hn : n = 13#4 ∨ n = 14#4)

/-- Where the bits are no mode, R13 and R14 are no registers. -/
theorem phys_of_no_mode {b : ModeBits} (hb : validMode b = false) (hn : n = 13#4 ∨ n = 14#4) : phys b n = none := by
  have hof : Mode.ofBits b = none := by simpa [validMode] using hb
  obtain rfl | rfl := hn <;> simp [phys, hof]

include hm hn

theorem State.readReg_of_no_mode : s.readReg n = none := by
  rw [State.readReg_eq_map, phys_of_no_mode hm hn, Option.map_none]

theorem State.writeReg_of_no_mode (v : Word) : s.writeReg n v = none := by
  simp [State.writeReg, phys_of_no_mode hm hn]

theorem withRm_of_no_mode (rule : Word → State → Host.Outcome State Fault Refusal) :
    withRm n rule s = .fault .currentModeNotValid := by
  have hpc : n ≠ 15#4 := by rintro rfl; simp at hn
  simp [withRm, hpc, State.readReg_of_no_mode hm hn]

/-- Where Rd is no register BIC and ORR stop, at Rn if that is none either. -/
theorem dpRule_of_no_mode_rd (f : Word → Word) (rn : RegNum) :
    dpRule f n rn s = .fault .currentModeNotValid := by
  cases hv : s.readReg rn <;> simp [dpRule, hv, State.writeReg_of_no_mode hm hn]

theorem dpRule_of_no_mode_rn (f : Word → Word) (rd : RegNum) :
    dpRule f rd n s = .fault .currentModeNotValid := by
  simp [dpRule, State.readReg_of_no_mode hm hn]

end NoMode

theorem spsrBank_of_no_mode {b : ModeBits} (hb : validMode b = false) : spsrBank b = none :=
  Option.eq_none_iff_forall_ne_some.mpr fun k hk => by simp [validMode_of_spsrBank hk] at hb

/-- Settles O35: where each instruction first needs the register, or the SPSR, that is not there. -/
theorem highRegistersOfNoModeStop : Obligations.HighRegistersOfNoModeStop := by
  intro c mask n k rot imm s hready hm hn hk
  have hpc : n ≠ 15#4 := by rintro rfl; simp at hn
  have hspsr : s.selectedPsr .spsr = none := by rw [State.selectedPsr_spsr, spsrBank_of_no_mode hm, Option.map_none]
  have stop {rule : State → Host.Outcome State Fault Refusal} {r : Fault} (h : rule s = .fault r) :
      s.runRule c rule = .fault r := runRule_of_ready_fault hready h
  have dpStop {rd rn : RegNum} {f : Word → Word} (hd : rd ≠ 15#4) (hrn : rn ≠ 15#4)
      (h : dpRule f rd rn s = .fault .currentModeNotValid) :
      refusePc rd rn (s.runRule c (dpRule f rd rn)) = .fault .currentModeNotValid :=
    (refusePc_of_ne hd hrn _).trans (stop h)
  refine ⟨stop ?_, stop ?_, stop (withRm_of_no_mode hm hn _), stop (withRm_of_no_mode hm hn _),
    dpStop hpc hk (dpRule_of_no_mode_rd hm hn _ k), dpStop hk hpc (dpRule_of_no_mode_rn hm hn _ k),
    dpStop hpc hk (dpRule_of_no_mode_rd hm hn _ k), dpStop hk hpc (dpRule_of_no_mode_rn hm hn _ k)⟩
  · simp [mrsRule, hpc, State.writeReg_of_no_mode hm hn]
  · simp [mrsRule, hpc, hspsr]

end Sys2Proof.Machine
end

section
/-! SUPPORT and proofs of the statements about MSR: what each field of the operand does to the PSR it goes to, that an
MSR is one write of that PSR, and where it stops. -/

namespace Sys2Proof.Machine

/-! ### The PSR after an MSR -/

section AfterMsr

variable (p : Psr) (mask : FieldMask) (w : Word)

theorem FlagsTaken.refl : FlagsTaken false w p p := ⟨rfl, rfl, rfl, rfl⟩

theorem ControlTaken.refl : ControlTaken false w p p := ⟨rfl, rfl, rfl⟩

/-- I, F and M after an MSR to the CPSR are the operand's exactly when field `c` is selected outside User mode. -/
theorem Psr.afterMsrCpsr_controlTaken :
    ControlTaken (mask.getLsbD 0 && decide (p.m ≠ 0b10000#5)) w p (p.afterMsrCpsr mask w) := by
  have priv : privileged p.m = decide (p.m ≠ 0b10000#5) := by
    rw [Bool.eq_iff_iff, privileged, bne_iff_ne, decide_eq_true_iff]
  unfold ControlTaken Psr.afterMsrCpsr
  rw [priv]
  split
  · exact ⟨rfl, rfl, rfl⟩
  · split <;> exact ⟨rfl, rfl, rfl⟩

theorem Psr.afterMsrSpsr_flagsTaken : FlagsTaken (mask.getLsbD 3) w p (p.afterMsrSpsr mask w) := by
  unfold FlagsTaken Psr.afterMsrSpsr
  split
  · split <;> exact ⟨rfl, rfl, rfl, rfl⟩
  · split <;> exact ⟨rfl, rfl, rfl, rfl⟩

theorem Psr.afterMsrSpsr_controlTaken : ControlTaken (mask.getLsbD 0) w p (p.afterMsrSpsr mask w) := by
  unfold ControlTaken Psr.afterMsrSpsr
  split
  · exact ⟨rfl, rfl, rfl⟩
  · split <;> exact ⟨rfl, rfl, rfl⟩

theorem Psr.afterMsrSpsr_t : (p.afterMsrSpsr mask w).t = if mask.getLsbD 0 then w.getLsbD 5 else p.t := by
  unfold Psr.afterMsrSpsr
  dsimp only
  split <;> split <;> rfl

variable {mask}

/-- With neither `f` nor `c` an MSR to the CPSR leaves it as it is. -/
theorem Psr.afterMsrCpsr_unselected (hf : mask.getLsbD 3 = false) (hc : mask.getLsbD 0 = false) :
    p.afterMsrCpsr mask w = p := by
  simp only [Psr.afterMsrCpsr, hf, hc, Bool.false_and, Bool.false_eq_true, if_false]

theorem Psr.afterMsrSpsr_unselected (hf : mask.getLsbD 3 = false) (hc : mask.getLsbD 0 = false) :
    p.afterMsrSpsr mask w = p := by
  simp only [Psr.afterMsrSpsr, hf, hc, Bool.false_eq_true, if_false]

/-- With both `f` and `c` an MSR to an SPSR stores every field of the operand. -/
theorem Psr.afterMsrSpsr_all (hf : mask.getLsbD 3 = true) (hc : mask.getLsbD 0 = true) :
    p.afterMsrSpsr mask w = psrOfWord w := by
  simp only [Psr.afterMsrSpsr, hf, hc, if_true]
  rfl

end AfterMsr

/-! ### MSR to the CPSR is one write of the CPSR -/

section MsrToCpsr

variable {c : Cond} {mask : FieldMask} {w : Word} {i : Instr} {s t : State}

/-- An MSR to the CPSR that answers advanced the pc after either nothing or the write. -/
theorem exec_msrToCpsr_next (hi : MsrToCpsr c mask w s i) (h : exec i s = .next t) :
    t = s.advancePc ∨
      (condPassed c s.cpsr = true ∧ t = (s.setCpsr (s.cpsr.afterMsrCpsr mask w)).advancePc) := by
  rw [exec_msrToCpsr hi] at h
  obtain ⟨-, ⟨-, rfl⟩ | ⟨hc, u, hu, rfl⟩⟩ := runRule_next h
  · exact .inl rfl
  · obtain ⟨-, -, rfl⟩ := msrCpsrRule_next hu
    exact .inr ⟨hc, rfl⟩

/-- Settles O39: the CPSR written is the one the fields of the operand give. -/
theorem msrWritesTheSelectedCpsrFields : Obligations.MsrWritesTheSelectedCpsrFields :=
  fun _ mask w _ s hi hr hw =>
    ⟨_, exec_msrToCpsr_of_operandOk hi hr hw, s.cpsr.afterMsrCpsr_flagsTaken mask w,
      s.cpsr.afterMsrCpsr_controlTaken mask w, s.cpsr.afterMsrCpsr_t w mask⟩

/-- Settles O41: field `c` is taken in every mode but User. -/
theorem privilegedBitsAreIgnoredInUserMode : Obligations.PrivilegedBitsAreIgnoredInUserMode := by
  intro c mask w i s hi hr hw hc
  have control := s.cpsr.afterMsrCpsr_controlTaken mask w
  rw [hc, Bool.true_and] at control
  refine ⟨_, exec_msrToCpsr_of_operandOk hi hr hw, fun hu => ?_, fun hu => ?_⟩
  · simpa [ControlTaken, hu] using control
  · simpa [ControlTaken, hu] using control

/-- Settles O34: a write of the CPSR moves no register and no SPSR, it only changes which ones the numbers name. -/
theorem modeSwitchSwapsTheBanks : Obligations.ModeSwitchSwapsTheBanks := by
  intro c mask w i s hi hr hc hu hw
  have hm : (s.cpsr.afterMsrCpsr mask w).m = w.extractLsb' 0 5 := by
    have control := s.cpsr.afterMsrCpsr_controlTaken mask w
    simp only [hc, hu, ControlTaken, ne_eq, not_false_eq_true, decide_true, Bool.and_self, if_true] at control
    exact control.2.2
  refine ⟨_, exec_msrToCpsr_of_operandOk hi hr hw, hm, fun n => ⟨?_, ?_⟩⟩
  · rw [State.readReg_advancePc, State.readReg_eq_map, State.setCpsr_cpsr, hm]
    exact congrArg (Option.map · _) (funext fun r => by simp)
  · rw [State.selectedPsr_spsr, State.advancePc_cpsr, State.setCpsr_cpsr, hm]
    exact congrArg (Option.map · _) (funext fun b => by simp)

/-- Settles O43: the CPSR is all that is written, and its T never. -/
theorem msrToCpsrFrame : Obligations.MsrToCpsrFrame := by
  intro c mask w i s t hi h
  obtain rfl | ⟨-, rfl⟩ := exec_msrToCpsr_next hi h
  · exact ⟨s.readPhys_advancePc, s.spsr_advancePc, ⟨s.byteAt_advancePc, rfl⟩, rfl⟩
  · exact ⟨fun r => by simp, fun b => by simp, ⟨fun a => by simp, rfl⟩, s.cpsr.afterMsrCpsr_t w mask⟩

/-- Rm = 15 stops the register form before anything is read. -/
theorem withRm_pc (rule : Word → State → Host.Outcome State Fault Refusal) (s : State) :
    withRm 15#4 rule s = .fault .msrRmIsPc := rfl

/-- Settles O44: the tests of the rule, in its order. -/
theorem msrToCpsrStops : Obligations.MsrToCpsrStops := by
  refine ⟨fun c mask s hr => runRule_of_ready_fault hr (withRm_pc _ s), fun c mask w i s hi hr hc => ?_⟩
  rw [exec_msrToCpsr hi]
  refine ⟨fun ht => runRule_of_ready_fault hr ?_, fun ht hu hm => runRule_of_ready_fault hr ?_⟩
  · simp only [msrCpsrRule, hc, Bool.true_and, bne_iff_ne.mpr ht, if_true]
  · have priv : privileged s.cpsr.m = true := bne_iff_ne.mpr hu
    have hm : validMode (modeField w) = false := hm
    simp only [msrCpsrRule, hc, ht, priv, hm, bne_self_eq_false, Bool.and_false, Bool.and_self, Bool.not_false,
      Bool.false_eq_true, if_false, if_true]

/-- An MSR to the CPSR that changes it had its condition passed, and changed a flag only where field `f` is selected. -/
theorem exec_msrToCpsr_changes (hi : MsrToCpsr c mask w s i) (h : exec i s = .next t) (hne : t.cpsr ≠ s.cpsr) :
    condPassed c s.cpsr = true ∧
      (t.cpsr.n ≠ s.cpsr.n ∨ t.cpsr.z ≠ s.cpsr.z ∨ t.cpsr.c ≠ s.cpsr.c ∨ t.cpsr.v ≠ s.cpsr.v →
        mask.getLsbD 3 = true) := by
  obtain rfl | ⟨hc, rfl⟩ := exec_msrToCpsr_next hi h
  · exact absurd rfl hne
  · refine ⟨hc, fun hflag => ?_⟩
    by_contra hf
    have flags := s.cpsr.afterMsrCpsr_flagsTaken mask w
    rw [FlagsTaken, if_neg hf] at flags
    obtain ⟨hn, hz, hc, hv⟩ := flags
    simp [hn, hz, hc, hv] at hflag

/-- An instruction whose rule keeps the CPSR keeps it. -/
theorem runRule_cpsr {rule : State → Host.Outcome State Fault Refusal}
    (hrule : ∀ u, rule s = .next u → u.cpsr = s.cpsr) (h : s.runRule c rule = .next t) : t.cpsr = s.cpsr := by
  obtain ⟨-, ⟨-, rfl⟩ | ⟨-, u, hu, rfl⟩⟩ := runRule_next h
  · rfl
  · exact hrule u hu

theorem msrSpsrRule_cpsr {u : State} (h : msrSpsrRule mask w s = .next u) : u.cpsr = s.cpsr := by
  obtain ⟨b, -, rfl⟩ := msrSpsrRule_next h
  exact State.setSpsr_cpsr ..

/-- Settles O28: every instruction but an MSR to the CPSR keeps it, and so does that one where Rm cannot be read. -/
theorem onlyMsrToTheCpsrWritesTheCpsr : Obligations.OnlyMsrToTheCpsrWritesTheCpsr := by
  intro i s t h hne
  cases i with
  | mrs c psr rd =>
    obtain ⟨-, hcpsr, -⟩ := mrsFrame c psr rd s t h
    exact absurd hcpsr hne
  | msrCpsrReg c mask rm =>
    cases hw : s.readReg rm with
    | some w => exact ⟨c, mask, w, .register hw, exec_msrToCpsr_changes (.register hw) h hne⟩
    | none =>
      refine absurd (runRule_cpsr (fun u hu => ?_) h) hne
      obtain ⟨-, v, hv, -⟩ := withRm_next hu
      rw [hw] at hv
      cases hv
  | msrSpsrReg c mask rm =>
    refine absurd (runRule_cpsr (fun u hu => ?_) h) hne
    obtain ⟨-, v, -, hu⟩ := withRm_next hu
    exact msrSpsrRule_cpsr hu
  | msrCpsrImm c mask rot imm => exact ⟨c, mask, _, .immediate rfl, exec_msrToCpsr_changes (.immediate rfl) h hne⟩
  | msrSpsrImm c mask rot imm => exact absurd (runRule_cpsr (fun u hu => msrSpsrRule_cpsr hu) h) hne
  | bic c rd rn rot imm =>
    obtain ⟨-, hcpsr, -⟩ := dpRule_frame h
    exact absurd hcpsr hne
  | orr c rd rn rot imm =>
    obtain ⟨-, hcpsr, -⟩ := dpRule_frame h
    exact absurd hcpsr hne

end MsrToCpsr

/-! ### MSR to the SPSR is one write of the mode's SPSR -/

section MsrToSpsr

variable {c : Cond} {mask : FieldMask} {w : Word} {i : Instr} {s t : State} {b : Bank}

/-- Both forms of MSR to the SPSR run the one rule on their operand. -/
theorem exec_msrToSpsr (h : MsrToSpsr c mask w s i) : exec i s = s.runRule c (msrSpsrRule mask w) := by
  cases h with
  | register hv => exact runRule_congr (withRm_of_readReg hv _)
  | immediate hw => subst hw; rfl

/-- An MSR to the SPSR that answers advanced the pc after either nothing or the write. -/
theorem exec_msrToSpsr_next (hi : MsrToSpsr c mask w s i) (h : exec i s = .next t) :
    t = s.advancePc ∨
      ∃ b, spsrBank s.cpsr.m = some b ∧ t = (s.setSpsr b ((s.spsr b).afterMsrSpsr mask w)).advancePc := by
  rw [exec_msrToSpsr hi] at h
  obtain ⟨-, ⟨-, rfl⟩ | ⟨-, u, hu, rfl⟩⟩ := runRule_next h
  · exact .inl rfl
  · obtain ⟨b, hb, rfl⟩ := msrSpsrRule_next hu
    exact .inr ⟨b, hb, rfl⟩

/-- In a mode with an SPSR, an MSR to it that is ready to run completes. -/
theorem exec_msrToSpsr_of_bank (hi : MsrToSpsr c mask w s i) (hr : Ready c s) (hb : spsrBank s.cpsr.m = some b) :
    exec i s = .next (s.setSpsr b ((s.spsr b).afterMsrSpsr mask w)).advancePc := by
  rw [exec_msrToSpsr hi]
  exact runRule_of_ready hr (by simp [msrSpsrRule, hb])

/-- Settles O45: the SPSR written is the one the fields of the operand give. -/
theorem msrWritesTheSelectedSpsrFields : Obligations.MsrWritesTheSelectedSpsrFields := by
  intro c mask w i s b hi hr hb
  refine ⟨_, exec_msrToSpsr_of_bank hi hr hb, ?_⟩
  rw [State.spsr_advancePc, State.spsr_setSpsr_same]
  exact ⟨Psr.afterMsrSpsr_flagsTaken _ mask w, Psr.afterMsrSpsr_controlTaken _ mask w, Psr.afterMsrSpsr_t _ mask w⟩

/-- Settles O46: the mode's SPSR is all that is written. -/
theorem msrToSpsrFrame : Obligations.MsrToSpsrFrame := by
  intro c mask w i s t hi h
  obtain rfl | ⟨k, hk, rfl⟩ := exec_msrToSpsr_next hi h
  · exact ⟨s.readPhys_advancePc, rfl, ⟨s.byteAt_advancePc, rfl⟩, fun b _ => s.spsr_advancePc b⟩
  · refine ⟨fun r => by simp, by simp, ⟨fun a => by simp, by simp⟩, fun b hb => ?_⟩
    have hne : b ≠ k := by rintro rfl; exact hb hk
    rw [State.spsr_advancePc, State.spsr_setSpsr_other s _ hne]

/-- Settles O47: Rm is looked at first, then the mode. -/
theorem msrToSpsrStops : Obligations.MsrToSpsrStops := by
  refine ⟨fun c mask s hr => runRule_of_ready_fault hr (withRm_pc _ s), fun c mask w i s hi hr hm => ?_⟩
  have hb : spsrBank s.cpsr.m = none := ((spsrBankOfEachMode s).1 hm).1
  rw [exec_msrToSpsr hi]
  exact runRule_of_ready_fault hr (by simp [msrSpsrRule, hb])

end MsrToSpsr

/-! ### MSR to either PSR -/

/-- Settles O42: a field is taken exactly when it is selected. -/
theorem unselectedFieldsAreUnchanged : Obligations.UnselectedFieldsAreUnchanged := by
  intro c mask w i s t h
  refine ⟨fun hi => ?_, fun hi b => ?_⟩
  · obtain rfl | ⟨-, rfl⟩ := exec_msrToCpsr_next hi h
    · exact ⟨fun _ => .refl .., fun _ => ⟨.refl .., rfl⟩, fun _ _ => rfl⟩
    · refine ⟨fun hf => ?_, fun hc => ⟨?_, s.cpsr.afterMsrCpsr_t w mask⟩, s.cpsr.afterMsrCpsr_unselected w⟩
      · exact hf ▸ s.cpsr.afterMsrCpsr_flagsTaken mask w
      · have control := s.cpsr.afterMsrCpsr_controlTaken mask w
        rwa [hc, Bool.false_and] at control
  · have written : t.spsr b = s.spsr b ∨ t.spsr b = (s.spsr b).afterMsrSpsr mask w := by
      obtain rfl | ⟨k, -, rfl⟩ := exec_msrToSpsr_next hi h
      · exact .inl (s.spsr_advancePc b)
      · by_cases hb : b = k
        · subst hb
          exact .inr (by rw [State.spsr_advancePc, State.spsr_setSpsr_same])
        · exact .inl (by rw [State.spsr_advancePc, State.spsr_setSpsr_other s _ hb])
    obtain hb | hb := written
    · rw [hb]
      exact ⟨fun _ => .refl .., fun _ => ⟨.refl .., rfl⟩, fun _ _ => rfl⟩
    · rw [hb]
      refine ⟨fun hf => ?_, fun hc => ⟨?_, ?_⟩, (s.spsr b).afterMsrSpsr_unselected w⟩
      · exact hf ▸ (s.spsr b).afterMsrSpsr_flagsTaken mask w
      · exact hc ▸ (s.spsr b).afterMsrSpsr_controlTaken mask w
      · rw [Psr.afterMsrSpsr_t, hc, if_neg Bool.false_ne_true]

/-- Settles O48: both forms run the one rule on the same operand. -/
theorem operandFormsAgree : Obligations.OperandFormsAgree :=
  fun _ _ _ _ _ _ h =>
    ⟨(exec_msrToCpsr (.register h)).trans (exec_msrToCpsr (.immediate rfl)).symm,
      (exec_msrToSpsr (.register h)).trans (exec_msrToSpsr (.immediate rfl)).symm⟩

/-- Settles O50: the word that MRS left in Rd holds every stored field of the SPSR, and MSR stores them all. -/
theorem savedSpsrIsRestored : Obligations.SavedSpsrIsRestored := by
  intro c d rd mask b s t u hb hc h hready hm hrd hf hcm
  obtain ⟨-, ⟨hfail, -⟩ | ⟨-, v, hv, rfl⟩⟩ := runRule_next h
  · rw [hc] at hfail
    cases hfail
  · obtain ⟨-, p, r, hp, hr, rfl⟩ := mrsRule_next hv
    have hp : s.spsr b = p := by simpa [State.selectedPsr_spsr, hb] using hp
    rw [State.readReg_advancePc, State.readReg_drew, State.readReg_writePhys_same hr] at hrd
    refine ⟨_, exec_msrToSpsr_of_bank (.register hrd) hready (hm ▸ hb), ?_⟩
    rw [State.spsr_advancePc, State.spsr_setSpsr_same, Psr.afterMsrSpsr_all _ _ hf hcm, psrOfWord_psrWord, hp]

/-! ### Only the stored fields of an operand count -/

/-- Two words that agree in bits 31:28 and 7:0 have the same fields of a PSR. -/
theorem psrOfWord_eq_of_agree {v w : Word} (h : v &&& 0xF00000FF#32 = w &&& 0xF00000FF#32) :
    psrOfWord v = psrOfWord w := by
  have bit (j : Nat) (hj : (0xF00000FF#32).getLsbD j = true) : v.getLsbD j = w.getLsbD j := by
    simpa only [BitVec.getLsbD_and, hj, Bool.and_true] using congrArg (·.getLsbD j) h
  have mode : modeField v = modeField w := by
    have low : ∀ j < 5, (0xF00000FF#32).getLsbD j = true := by decide
    apply BitVec.eq_of_getLsbD_eq
    intro j hj
    rw [modeField, modeField, BitVec.getLsbD_extractLsb', BitVec.getLsbD_extractLsb', Nat.zero_add, bit j (low j hj)]
  simp only [psrOfWord, Psr.withFlags, Psr.withControlAndT, mode, bit 31 rfl, bit 30 rfl, bit 29 rfl, bit 28 rfl,
    bit 7 rfl, bit 6 rfl, bit 5 rfl]

section SameFields

variable {v w : Word} (h : psrOfWord v = psrOfWord w)
include h

theorem Psr.withFlags_congr (p : Psr) : p.withFlags v = p.withFlags w :=
  congrArg (fun q : Psr => { p with n := q.n, z := q.z, c := q.c, v := q.v }) h

theorem Psr.withControl_congr (p : Psr) : p.withControl v = p.withControl w :=
  congrArg (fun q : Psr => { p with i := q.i, f := q.f, m := q.m }) h

theorem Psr.withControlAndT_congr (p : Psr) : p.withControlAndT v = p.withControlAndT w :=
  congrArg (fun q : Psr => { p with i := q.i, f := q.f, t := q.t, m := q.m }) h

theorem Psr.afterMsrCpsr_congr (p : Psr) (mask : FieldMask) : p.afterMsrCpsr mask v = p.afterMsrCpsr mask w := by
  simp only [Psr.afterMsrCpsr, Psr.withFlags_congr h, Psr.withControl_congr h]

theorem Psr.afterMsrSpsr_congr (p : Psr) (mask : FieldMask) : p.afterMsrSpsr mask v = p.afterMsrSpsr mask w := by
  simp only [Psr.afterMsrSpsr, Psr.withFlags_congr h, Psr.withControlAndT_congr h]

variable {c : Cond} {mask : FieldMask} {i i' : Instr} {s s' t : State} (hpc : s'.pc = s.pc) (hcpsr : s'.cpsr = s.cpsr)
include hpc hcpsr

/-- In two states with one pc and one CPSR, operands with the same fields leave the same CPSR. -/
theorem exec_msrToCpsr_congr (hi : MsrToCpsr c mask v s i) (hi' : MsrToCpsr c mask w s' i')
    (ht : exec i s = .next t) : ∃ u, exec i' s' = .next u ∧ u.cpsr = t.cpsr := by
  rw [exec_msrToCpsr hi] at ht
  obtain ⟨hl, ⟨hc, rfl⟩ | ⟨hc, u, hu, rfl⟩⟩ := runRule_next ht
  · exact ⟨_, (exec_msrToCpsr hi').trans (runRule_of_failed (hpc ▸ hl) (hcpsr ▸ hc)), hcpsr⟩
  · obtain ⟨hT, hM, rfl⟩ := msrCpsrRule_next hu
    have t5 : v.getLsbD 5 = w.getLsbD 5 := congrArg Psr.t h
    have m5 : modeField v = modeField w := congrArg Psr.m h
    have ok : CpsrOperandOk mask w s' := by
      rw [t5] at hT
      rw [m5] at hM
      intro hmask
      rw [hcpsr]
      exact ⟨hT hmask, fun hu => hM hmask (bne_iff_ne.mpr hu)⟩
    refine ⟨_, exec_msrToCpsr_of_operandOk hi' ⟨hpc ▸ hl, hcpsr ▸ hc⟩ ok, ?_⟩
    simp only [State.advancePc_cpsr, State.setCpsr_cpsr, hcpsr, Psr.afterMsrCpsr_congr h]

/-- In two states with one pc, one CPSR and the same SPSRs, operands with the same fields leave the same SPSRs. -/
theorem exec_msrToSpsr_congr (hspsr : SameSpsrs s s') (hi : MsrToSpsr c mask v s i) (hi' : MsrToSpsr c mask w s' i')
    (ht : exec i s = .next t) : ∃ u, exec i' s' = .next u ∧ SameSpsrs t u := by
  rw [exec_msrToSpsr hi] at ht
  obtain ⟨hl, ⟨hc, rfl⟩ | ⟨hc, u, hu, rfl⟩⟩ := runRule_next ht
  · exact ⟨_, (exec_msrToSpsr hi').trans (runRule_of_failed (hpc ▸ hl) (hcpsr ▸ hc)), hspsr⟩
  · obtain ⟨b, hb, rfl⟩ := msrSpsrRule_next hu
    refine ⟨_, exec_msrToSpsr_of_bank hi' ⟨hpc ▸ hl, hcpsr ▸ hc⟩ (hcpsr ▸ hb), fun k => ?_⟩
    rw [State.spsr_advancePc, State.spsr_advancePc, hspsr b, Psr.afterMsrSpsr_congr h]
    by_cases hk : k = b
    · subst hk
      rw [State.spsr_setSpsr_same, State.spsr_setSpsr_same]
    · rw [State.spsr_setSpsr_other _ _ hk, State.spsr_setSpsr_other _ _ hk, hspsr k]

end SameFields

/-- Settles O49: writing Rm changes neither pc nor a PSR, and the two words have the same fields. -/
theorem reservedOperandBitsAreDiscarded : Obligations.ReservedOperandBitsAreDiscarded := by
  intro c mask rm r v w s hr hvw
  have fields := psrOfWord_eq_of_agree hvw
  have rm_v : (s.writePhys r v).readReg rm = some v := State.readReg_writePhys_same hr v
  have rm_w : (s.writePhys r w).readReg rm = some w := State.readReg_writePhys_same hr w
  refine ⟨fun t => ?_, fun t => ?_⟩
  · exact exec_msrToCpsr_congr fields (by simp) (by simp) (.register rm_v) (.register rm_w)
  · exact exec_msrToSpsr_congr fields (by simp) (by simp) (fun b => by simp) (.register rm_v) (.register rm_w)

end Sys2Proof.Machine
end

section
/-! SUPPORT and proofs of the statements about exceptions: the state after entry field by field, the return, and which
interrupt is let in. -/

namespace Sys2Proof.Machine

/-! ### The state after entry -/

theorem Exn.mode_bank (e : Exn) : e.mode.bank = some e.bank := by cases e <;> rfl

/-- The SPSR of the entered mode is that of the exception's bank. -/
theorem Exn.spsrBank_mode (e : Exn) : spsrBank e.mode.bits = some e.bank := by
  rw [spsrBank_bits, e.mode_bank]

/-- R14 of the entered mode is that of the exception's bank. -/
theorem Exn.phys_link (e : Exn) : phys e.mode.bits 14#4 = some (e.bank.high 1) :=
  phys_banked (k := 14) e.spsrBank_mode (.inr rfl)

/-- Every exception but Reset has a link, 8 above the pc for a data abort and else 4. -/
theorem Exn.linkOffset_of_ne_reset {e : Exn} (h : e ≠ .reset) :
    e.linkOffset = some (if e = .dataAbort then 8#32 else 4#32) := by
  cases e with
  | reset => exact absurd rfl h
  | _ => rfl

section Entry

variable (s : State) (e : Exn)

@[simp] theorem State.takeException_pc : (s.takeException e).pc = e.vector := rfl
@[simp] theorem State.takeException_cpsr : (s.takeException e).cpsr = s.cpsr.enter e := rfl

@[simp] theorem State.takeException_order : (s.takeException e).order = s.order := by
  simp [State.takeException]

@[simp] theorem State.byteAt_takeException (a : Word) : (s.takeException e).byteAt a = s.byteAt a := by
  simp [State.takeException, State.byteAt]

theorem State.spsr_takeException (b : Bank) :
    (s.takeException e).spsr b =
      ((s.writePhys (e.bank.high 1) (s.linkFor e)).setSpsr e.bank (s.savedFor e)).spsr b := by
  cases b <;> rfl

theorem State.readPhys_takeException (r : PhysReg) :
    (s.takeException e).readPhys r = (s.writePhys (e.bank.high 1) (s.linkFor e)).readPhys r := by
  refine Eq.trans ?_ (State.readPhys_setSpsr _ e.bank (s.savedFor e) r)
  cases r <;> rfl

/-- The SPSR of the entered mode receives what the exception saves. -/
theorem State.spsr_takeException_same : (s.takeException e).spsr e.bank = s.savedFor e := by
  rw [State.spsr_takeException, State.spsr_setSpsr_same]

theorem State.spsr_takeException_other {b : Bank} (h : b ≠ e.bank) : (s.takeException e).spsr b = s.spsr b := by
  rw [State.spsr_takeException, State.spsr_setSpsr_other _ _ h, State.spsr_writePhys]

theorem State.readPhys_takeException_link : (s.takeException e).readPhys (e.bank.high 1) = s.linkFor e := by
  rw [State.readPhys_takeException, State.readPhys_writePhys_same]

/-- Every register but the entered mode's R14 is as before. -/
theorem State.readPhys_takeException_other {r : PhysReg} (h : phys e.mode.bits 14#4 ≠ some r) :
    (s.takeException e).readPhys r = s.readPhys r := by
  have hne : r ≠ e.bank.high 1 := by rintro rfl; exact h e.phys_link
  rw [State.readPhys_takeException, State.readPhys_writePhys_other s _ hne]

variable {e} (h : e ≠ .reset)
include h

theorem State.savedFor_of_ne_reset : s.savedFor e = s.cpsr := by
  simp [State.savedFor, Exn.linkOffset_of_ne_reset h]

theorem State.linkFor_of_ne_reset : s.linkFor e = s.pc + if e = .dataAbort then 8#32 else 4#32 := by
  simp [State.linkFor, Exn.linkOffset_of_ne_reset h]

end Entry

/-- Settles O55: entry field by field, and the link and the saved CPSR of every exception but Reset. -/
theorem exceptionEntry : Obligations.ExceptionEntry := by
  intro s e
  have fiq : e.disablesFiq = decide (e = .reset ∨ e = .fiq) := by cases e <;> rfl
  refine ⟨rfl, rfl, rfl, congrArg (s.cpsr.f || ·) fiq, ⟨rfl, rfl, rfl, rfl⟩, rfl, fun he => ⟨e.spsrBank_mode, ?_, ?_⟩⟩
  · rw [State.spsr_takeException_same, s.savedFor_of_ne_reset he]
  · rw [State.readReg_of_phys (r := e.bank.high 1) e.phys_link, State.readPhys_takeException_link,
      s.linkFor_of_ne_reset he]

/-- Settles O56: entry writes one register and one SPSR. -/
theorem exceptionEntryFrame : Obligations.ExceptionEntryFrame :=
  fun s e => ⟨fun _ hr => s.readPhys_takeException_other e hr, fun _ hb => s.spsr_takeException_other e hb,
    s.byteAt_takeException e, s.takeException_order e⟩

/-! ### The return -/

section Return

variable {s : State} {b : Bank} (target : Word)

theorem State.exceptionReturn_of_no_bank (hb : spsrBank s.cpsr.m = none) :
    s.exceptionReturn target = .fault .noSpsrInMode := by
  simp [State.exceptionReturn, hb]

theorem State.exceptionReturn_of_no_mode (hb : spsrBank s.cpsr.m = some b) (hm : validMode (s.spsr b).m = false) :
    s.exceptionReturn target = .fault .invalidMode := by
  simp [State.exceptionReturn, hb, hm]

/-- A return completes where the SPSR holds a mode: the CPSR and the pc are all that changes. -/
theorem State.exceptionReturn_completes (hb : spsrBank s.cpsr.m = some b) (hm : validMode (s.spsr b).m = true) :
    ∃ u, s.exceptionReturn target = .next u ∧ u.cpsr = s.spsr b ∧ u.pc = target ∧ SameRegisters s u ∧
      SameSpsrs s u ∧ SameText s u := by
  refine ⟨{ s.setCpsr (s.spsr b) with pc := target }, ?_, rfl, rfl, fun r => ?_, fun k => ?_, fun a => rfl, rfl⟩
  · simp [State.exceptionReturn, hb, hm]
  · cases r <;> rfl
  · cases k <;> rfl

end Return

/-- Settles O58: the three ways a return ends. -/
theorem exceptionReturnCopiesTheSpsr : Obligations.ExceptionReturnCopiesTheSpsr :=
  fun _ target => ⟨State.exceptionReturn_of_no_bank target, fun _ hb =>
    ⟨State.exceptionReturn_completes target hb, State.exceptionReturn_of_no_mode target hb⟩⟩

/-- Settles O57: entry saved the CPSR in the SPSR that the return copies back. -/
theorem exceptionReturnRestoresTheCpsr : Obligations.ExceptionReturnRestoresTheCpsr := by
  intro s e target he hm
  have saved : (s.takeException e).spsr e.bank = s.cpsr := by
    rw [State.spsr_takeException_same, s.savedFor_of_ne_reset he]
  obtain ⟨u, hu, hcpsr, hpc, hregs, -⟩ :=
    State.exceptionReturn_completes (s := s.takeException e) target e.spsrBank_mode (saved ▸ hm)
  exact ⟨u, hu, hcpsr.trans saved, hpc, fun r hr => (hregs r).trans (s.readPhys_takeException_other e hr)⟩

/-! ### Interrupts -/

/-- Settles O59: the two tests in their order. -/
theorem disableBitsMaskInterrupts : Obligations.DisableBitsMaskInterrupts := by
  intro p irqInput fiqInput
  have fiqTest : (fiqInput && !p.f) = true ↔ fiqInput = true ∧ p.f = false := by simp
  have irqTest : (irqInput && !p.i) = true ↔ irqInput = true ∧ p.i = false := by simp
  unfold interruptAdmitted
  by_cases hf : fiqInput = true ∧ p.f = false
  · simp [hf]
  · rw [if_neg (mt fiqTest.mp hf)]
    by_cases hi : irqInput = true ∧ p.i = false
    · simp [hf, hi]
    · rw [if_neg (mt irqTest.mp hi)]
      refine ⟨by simp [hf], ?_, fun _ _ => rfl⟩
      simpa using fun h h' => absurd ⟨h, h'⟩ hi

end Sys2Proof.Machine
end

section
/-! SUPPORT and proof of the statement about I and F: every instruction but MRS of the CPSR answers alike over other
values of them. -/

namespace Sys2Proof.Machine

/-! ### The state over other values of I and F -/

/-- The same PSR with I and F set. -/
def Psr.withDisableBits (p : Psr) (bi bf : Bool) : Psr := { p with i := bi, f := bf }

/-- The same machine with I and F of the CPSR set. -/
def State.withDisableBits (s : State) (bi bf : Bool) : State := s.setCpsr (s.cpsr.withDisableBits bi bf)

section DisableBits

variable (s : State) (bi bf : Bool)

@[simp] theorem State.withDisableBits_pc : (s.withDisableBits bi bf).pc = s.pc := rfl
@[simp] theorem State.withDisableBits_draws : (s.withDisableBits bi bf).draws = s.draws := rfl
@[simp] theorem State.withDisableBits_cpsr : (s.withDisableBits bi bf).cpsr = s.cpsr.withDisableBits bi bf := rfl
@[simp] theorem Psr.withDisableBits_m (p : Psr) : (p.withDisableBits bi bf).m = p.m := rfl
@[simp] theorem Psr.withDisableBits_t (p : Psr) : (p.withDisableBits bi bf).t = p.t := rfl

/-- No condition tests I or F. -/
@[simp] theorem condPassed_withDisableBits (c : Cond) (p : Psr) :
    condPassed c (p.withDisableBits bi bf) = condPassed c p := by cases c <;> rfl

@[simp] theorem State.spsr_withDisableBits (b : Bank) : (s.withDisableBits bi bf).spsr b = s.spsr b :=
  s.spsr_setCpsr _ b

@[simp] theorem State.readReg_withDisableBits (n : RegNum) : (s.withDisableBits bi bf).readReg n = s.readReg n := by
  simp [State.readReg, State.withDisableBits]

/-! Every update commutes with setting I and F. -/

@[simp] theorem State.advancePc_withDisableBits :
    (s.withDisableBits bi bf).advancePc = s.advancePc.withDisableBits bi bf := rfl
@[simp] theorem State.drew_withDisableBits (k : Nat) :
    (s.withDisableBits bi bf).drew k = (s.drew k).withDisableBits bi bf := rfl
@[simp] theorem State.setSpsr_withDisableBits (b : Bank) (p : Psr) :
    (s.withDisableBits bi bf).setSpsr b p = (s.setSpsr b p).withDisableBits bi bf := by cases b <;> rfl
@[simp] theorem State.writePhys_withDisableBits (r : PhysReg) (v : Word) :
    (s.withDisableBits bi bf).writePhys r v = (s.writePhys r v).withDisableBits bi bf := by cases r <;> rfl

@[simp] theorem State.writeReg_withDisableBits (n : RegNum) (v : Word) :
    (s.withDisableBits bi bf).writeReg n v = (s.writeReg n v).map (·.withDisableBits bi bf) := by
  cases h : phys s.cpsr.m n <;> simp [State.writeReg, h]

/-- An MSR to the CPSR either overwrites I and F or carries them over; every other field it takes from elsewhere. -/
theorem Psr.afterMsrCpsr_withDisableBits (p : Psr) (mask : FieldMask) (w : Word) :
    ∃ bi' bf', (p.withDisableBits bi bf).afterMsrCpsr mask w = (p.afterMsrCpsr mask w).withDisableBits bi' bf' := by
  obtain hc | hc := (mask.getLsbD 0 && privileged p.m).eq_false_or_eq_true
  · refine ⟨w.getLsbD 7, w.getLsbD 6, ?_⟩
    simp only [Psr.afterMsrCpsr, Psr.withDisableBits_m, hc, if_true]
    cases mask.getLsbD 3 <;> rfl
  · refine ⟨bi, bf, ?_⟩
    simp only [Psr.afterMsrCpsr, Psr.withDisableBits_m, hc, Bool.false_eq_true, if_false]
    cases mask.getLsbD 3 <;> rfl

end DisableBits

/-! ### The answer over other values of I and F -/

/-- Two answers are alike: the same stop, or next states that differ in I and F of the CPSR at most. -/
inductive AlikeButDisableBits : Host.Outcome State Fault Refusal → Host.Outcome State Fault Refusal → Prop where
  | next (t : State) (bi bf : Bool) : AlikeButDisableBits (.next t) (.next (t.withDisableBits bi bf))
  | fault (r : Fault) : AlikeButDisableBits (.fault r) (.fault r)
  | refused (r : Refusal) : AlikeButDisableBits (.refused r) (.refused r)

namespace AlikeButDisableBits

variable {o : Host.Outcome State Fault Refusal}

theorem of_next {t : State} (h : AlikeButDisableBits (.next t) o) : ∃ bi bf, o = .next (t.withDisableBits bi bf) := by
  cases h with
  | next _ bi bf => exact ⟨bi, bf, rfl⟩

theorem of_fault {r : Fault} (h : AlikeButDisableBits (.fault r) o) : o = .fault r := by
  cases h
  rfl

theorem of_refused {r : Refusal} (h : AlikeButDisableBits (.refused r) o) : o = .refused r := by
  cases h
  rfl

end AlikeButDisableBits

section Alike

variable {s : State} {bi bf : Bool}

theorem runRule_alike {c : Cond} {rule : State → Host.Outcome State Fault Refusal}
    (h : AlikeButDisableBits (rule s) (rule (s.withDisableBits bi bf))) :
    AlikeButDisableBits (s.runRule c rule) ((s.withDisableBits bi bf).runRule c rule) := by
  simp only [State.runRule, State.guarded, State.withDisableBits_pc, State.withDisableBits_cpsr,
    condPassed_withDisableBits]
  split
  · exact .refused _
  · split
    · generalize rule s = o, rule (s.withDisableBits bi bf) = o' at h
      cases h with
      | next t bi' bf' => exact .next t.advancePc bi' bf'
      | fault r => exact .fault r
      | refused r => exact .refused r
    · exact .next s.advancePc bi bf

theorem refusePc_alike {rd rn : RegNum} {o o' : Host.Outcome State Fault Refusal} (h : AlikeButDisableBits o o') :
    AlikeButDisableBits (refusePc rd rn o) (refusePc rd rn o') := by
  unfold refusePc
  split
  · exact .refused _
  · exact h

theorem withRm_alike {rm : RegNum} {rule : Word → State → Host.Outcome State Fault Refusal}
    (h : ∀ w, AlikeButDisableBits (rule w s) (rule w (s.withDisableBits bi bf))) :
    AlikeButDisableBits (withRm rm rule s) (withRm rm rule (s.withDisableBits bi bf)) := by
  unfold withRm
  rw [State.readReg_withDisableBits]
  split
  · exact .fault _
  · split
    · exact .fault _
    · exact h _

theorem dpRule_alike (f : Word → Word) (rd rn : RegNum) :
    AlikeButDisableBits (dpRule f rd rn s) (dpRule f rd rn (s.withDisableBits bi bf)) := by
  cases hv : s.readReg rn with
  | none => simpa [dpRule, hv] using .fault _
  | some v =>
    cases hu : s.writeReg rd (f v) with
    | none => simpa [dpRule, hv, hu] using .fault _
    | some u => simpa [dpRule, hv, hu] using .next u bi bf

theorem mrsRule_spsr_alike (rd : RegNum) :
    AlikeButDisableBits (mrsRule .spsr rd s) (mrsRule .spsr rd (s.withDisableBits bi bf)) := by
  have selected : (s.withDisableBits bi bf).selectedPsr .spsr = s.selectedPsr .spsr := by
    simp [State.selectedPsr]
  by_cases hrd : rd = 15#4
  · simpa [mrsRule, hrd] using .fault _
  · cases hp : s.selectedPsr .spsr with
    | none => simpa [mrsRule, hrd, selected, hp] using .fault _
    | some p =>
      cases hu : s.writeReg rd (psrWord p (Config.reservedBits s.draws)) with
      | none => simpa [mrsRule, hrd, selected, hp, hu] using .fault _
      | some u => simpa [mrsRule, hrd, selected, hp, hu] using .next (u.drew 1) bi bf

theorem msrCpsrRule_alike (mask : FieldMask) (w : Word) :
    AlikeButDisableBits (msrCpsrRule mask w s) (msrCpsrRule mask w (s.withDisableBits bi bf)) := by
  simp only [msrCpsrRule, State.withDisableBits_cpsr, Psr.withDisableBits_t, Psr.withDisableBits_m]
  obtain ht | ht := (mask.getLsbD 0 && w.getLsbD 5 != s.cpsr.t).eq_false_or_eq_true
  · simpa only [ht, if_true] using .fault _
  · obtain hm | hm := (mask.getLsbD 0 && privileged s.cpsr.m && !validMode (modeField w)).eq_false_or_eq_true
    · simpa only [ht, hm, Bool.false_eq_true, if_false, if_true] using .fault _
    · obtain ⟨bi', bf', hp⟩ := Psr.afterMsrCpsr_withDisableBits bi bf s.cpsr mask w
      simpa only [ht, hm, hp, Bool.false_eq_true, if_false] using .next (s.setCpsr (s.cpsr.afterMsrCpsr mask w)) bi' bf'

theorem msrSpsrRule_alike (mask : FieldMask) (w : Word) :
    AlikeButDisableBits (msrSpsrRule mask w s) (msrSpsrRule mask w (s.withDisableBits bi bf)) := by
  cases hb : spsrBank s.cpsr.m with
  | none => simpa [msrSpsrRule, hb] using .fault _
  | some b => simpa [msrSpsrRule, hb] using .next (s.setSpsr b ((s.spsr b).afterMsrSpsr mask w)) bi bf

/-- Over other values of I and F every instruction but MRS of the CPSR answers alike. -/
theorem exec_alike {i : Instr} (hi : ∀ c rd, i ≠ .mrs c .cpsr rd) :
    AlikeButDisableBits (exec i s) (exec i (s.withDisableBits bi bf)) := by
  cases i with
  | mrs c psr rd =>
    cases psr with
    | cpsr => exact absurd rfl (hi c rd)
    | spsr => exact runRule_alike (mrsRule_spsr_alike rd)
  | msrCpsrReg c mask rm => exact runRule_alike (withRm_alike (msrCpsrRule_alike mask))
  | msrSpsrReg c mask rm => exact runRule_alike (withRm_alike (msrSpsrRule_alike mask))
  | msrCpsrImm c mask rot imm => exact runRule_alike (msrCpsrRule_alike mask _)
  | msrSpsrImm c mask rot imm => exact runRule_alike (msrSpsrRule_alike mask _)
  | bic c rd rn rot imm => exact refusePc_alike (runRule_alike (dpRule_alike _ rd rn))
  | orr c rd rn rot imm => exact refusePc_alike (runRule_alike (dpRule_alike _ rd rn))

end Alike

/-- Settles O60: an answer that is alike is of the same kind. -/
theorem disableBitsAreSeenOnlyByMrs : Obligations.DisableBitsAreSeenOnlyByMrs := by
  intro i s bi bf hi
  have alike : AlikeButDisableBits (exec i s) (exec i (s.setCpsr { s.cpsr with i := bi, f := bf })) := exec_alike hi
  refine ⟨fun t ht => ?_, fun r hr => ?_, fun r hr => ?_⟩
  · rw [ht] at alike
    obtain ⟨bi', bf', hu⟩ := alike.of_next
    exact ⟨_, hu, rfl⟩
  · rw [hr] at alike
    exact alike.of_fault
  · rw [hr] at alike
    exact alike.of_refused

end Sys2Proof.Machine
end
